-- ==== Sys2Proof/Word.lean ====
section
/-! DEFINITION. The word types of the hardware (spec 00_scope.md R5, R7, R8): bit 0 is the least
significant bit of every value, every value is unsigned. -/

namespace Sys2Proof

/-- A memory cell or a general register: 8 bits (R5 `VLEN`). -/
abbrev Byte := BitVec 8

/-- An instruction word, `I`, `PC`, `IR`, a stack entry, `FAULT_INFO`: 16 bits (R5). -/
abbrev Word := BitVec 16

/-- A four-bit field of an instruction word (R7). -/
abbrev Nibble := BitVec 4

/-- A twelve-bit address immediate (R91 `nnn`). -/
abbrev Addr12 := BitVec 12

/-- The number of a general register `V0` .. `VF`: every value names a register (R21). -/
abbrev Reg := Fin 16

/-- A key identifier, 0 to 15 (R5 `NKEYS`, R236). -/
abbrev Key := Fin 16

/-- `VF`, the only flag (R22). -/
abbrev VF : Reg := 15

end Sys2Proof
end

