-- ==== Sys2Proof/Machine/Flags.lean ====
section
/-! DEFINITION. Every flag the spec computes (10_state.md R22, 42_alu.md R172): each is written to `VF`
as 0 or 1. -/

namespace Sys2Proof.Machine

/-- "always with the value 0 or 1" (R22). -/
def flagByte (b : Bool) : Byte := if b then 1 else 0

/-- Carry out of an addition: the sum is above 255 (R166). -/
def carryOut (a b : Byte) : Bool := decide (255 < a.toNat + b.toNat)

/-- No borrow in `a - b` (R167, R169). -/
def noBorrow (a b : Byte) : Bool := decide (b.toNat ≤ a.toNat)

/-- The bit a right shift by one shifts out (R168). -/
def shiftedOutRight (s : Byte) : Bool := s.getLsbD 0

/-- The bit a left shift by one shifts out (R170). -/
def shiftedOutLeft (s : Byte) : Bool := s.getLsbD 7

/-- Collision of one pixel: it was on and is off (R211 step 3, R213). -/
def collides (old new : Bool) : Bool := old && !new

end Sys2Proof.Machine
end

