-- ==== Sys2Proof/Config.lean ====
section
/-! DEFINITION. The parameters of spec 00_scope.md R6.
`Config` holds the seven for which the spec takes a value; `Config.taken` is that value, one constant.
`Launch` holds the three that belong to a run (R39): the font, the program image and `Q`; they stand in
State, so that a claim about every state holds for every value of them (log entry 2).
The free values have no body, so nothing can be proved about them. -/

namespace Sys2Proof

/-- R6 `SHIFT_SOURCE`: the register that `8xy6` and `8xyE` shift (D2). -/
inductive ShiftSource
  | vx  -- the value taken
  | vy  -- the alternative of R168
  deriving DecidableEq, Repr

/-- R6 `DATA_OOB`: a data access above 0xFFF (D6). -/
inductive DataOob
  | fault  -- the value taken: DataAddressFault
  | wrap   -- the alternative of D6: modulo 4096
  deriving DecidableEq, Repr

/-- R6 `FONT_WRITE`: a store into 0x000 to 0x04F (D7). -/
inductive FontWrite
  | fault    -- the value taken: FontWriteFault
  | perform  -- an alternative of D7
  | ignore   -- an alternative of D7
  deriving DecidableEq, Repr

/-- R6 `KEY_RANGE`: `Ex9E` and `ExA1` with `Vx > 15` (D8). -/
inductive KeyRange
  | fault       -- the value taken: KeyIndexFault
  | lowNibble   -- an alternative of D8
  | notPressed  -- an alternative of D8
  deriving DecidableEq, Repr

/-- The parameters of R6 for which the spec takes a value. -/
structure Config where
  /-- fetch faults when `PC >= FETCH_LIMIT` (D1, C1); at most 4095, so that both bytes of a word exist -/
  fetchLimit : Fin 0x1000
  shiftSource : ShiftSource
  /-- state with no reset value in the source resets to zero (D5); with `false` it holds a free value -/
  resetZero : Bool
  dataOob : DataOob
  fontWrite : FontWrite
  keyRange : KeyRange
  /-- every literal hexadecimal digit of a pattern must match (D9, C5) -/
  strictDecode : Bool
  deriving DecidableEq, Repr

/-- The values the spec takes (R6, column "value taken"): the machine of this model. -/
def Config.taken : Config where
  fetchLimit := 4094
  shiftSource := .vx
  resetZero := true
  dataOob := .fault
  fontWrite := .fault
  keyRange := .fault
  strictDecode := true

/-- FREE VALUE: the byte of the k-th draw for which the environment has listed none
(R171, U5: any value; log entry 4). -/
opaque Config.freeRand : Nat → Byte

/-- FREE VALUE: what a piece of state holds at reset when `RESET_ZERO` is false. The value taken is
true, so no reachable definition looks at it (log entry 3). -/
opaque Config.freeReset : Nat → Nat

/-- The reset value of a piece of state that the source does not initialise (R40, D5). `site` tells
the pieces apart; it matters only when `RESET_ZERO` is false. -/
def Config.resetFill (width site : Nat) : BitVec width :=
  if Config.taken.resetZero then 0 else BitVec.ofNat width (Config.freeReset site)

/-- The run's own parameters (R39): "fixed at reset and no step changes them". -/
structure Launch where
  /-- `FONT[0..79]` (R62, D3) -/
  font : Vector Byte 80
  /-- `ROM[0..len-1]`, `len <= 3584` (R292) -/
  rom : {image : List Byte // image.length ≤ 3584}
  /-- `Q >= 1`, time units of `in.now` per timer tick (R29, D4) -/
  q : {units : Nat // 0 < units}
  deriving DecidableEq, Repr

/-- Glyphs 0 to 7 of the table of R62. -/
def glyphs0to7 : List Byte :=
  [0xF0, 0x90, 0x90, 0x90, 0xF0] ++ [0x20, 0x60, 0x20, 0x20, 0x70] ++
  [0xF0, 0x10, 0xF0, 0x80, 0xF0] ++ [0xF0, 0x10, 0xF0, 0x10, 0xF0] ++
  [0x90, 0x90, 0xF0, 0x10, 0x10] ++ [0xF0, 0x80, 0xF0, 0x10, 0xF0] ++
  [0xF0, 0x80, 0xF0, 0x90, 0xF0] ++ [0xF0, 0x10, 0x20, 0x40, 0x40]

/-- Glyphs 8 to F of the table of R62. -/
def glyphs8toF : List Byte :=
  [0xF0, 0x90, 0xF0, 0x90, 0xF0] ++ [0xF0, 0x90, 0xF0, 0x10, 0xF0] ++
  [0xF0, 0x90, 0xF0, 0x90, 0x90] ++ [0xE0, 0x90, 0xE0, 0x90, 0xE0] ++
  [0xF0, 0x80, 0x80, 0x80, 0xF0] ++ [0xE0, 0x90, 0x90, 0x90, 0xE0] ++
  [0xF0, 0x80, 0xF0, 0x80, 0xF0] ++ [0xF0, 0x80, 0xF0, 0x80, 0x80]

/-- The customary font, the default of `FONT` (R62, D3; from general knowledge, not in the source). -/
def customaryFont : Vector Byte 80 := ⟨(glyphs0to7 ++ glyphs8toF).toArray, rfl⟩

/-- The launch of `State.reset`: the customary font, an empty image, `Q = 1`.
`ROM` and `Q` are OPEN in the spec: these two values are a DESIGN CHOICE (log entry 2). -/
def Launch.default : Launch where
  font := customaryFont
  rom := ⟨[], Nat.zero_le _⟩
  q := ⟨1, Nat.one_pos⟩

end Sys2Proof
end

