-- ==== Sys2Proof/Syntax.lean ====
section
/-! DEFINITION. The instructions: one constructor for each row of spec/opcode_table.json, the 34
patterns of 30_encoding.md R95 and the fallback row for a word that matches none of them (R96). -/

namespace Sys2Proof

/-- An instruction, its fields already taken apart (R91, R93). The comment is the row's pattern. -/
inductive Instr
  /-- `00E0` clear the framebuffer (R210) -/
  | cls
  /-- `00EE` return from subroutine (R140) -/
  | ret
  /-- `1nnn` jump (R141) -/
  | jp (nnn : Addr12)
  /-- `2nnn` call (R142) -/
  | call (nnn : Addr12)
  /-- `3xnn` skip if `Vx = nn` (R143) -/
  | seImm (x : Reg) (nn : Byte)
  /-- `4xnn` skip if `Vx != nn` (R144) -/
  | sneImm (x : Reg) (nn : Byte)
  /-- `5xy0` skip if `Vx = Vy` (R145) -/
  | seReg (x y : Reg)
  /-- `6xnn` load immediate (R160) -/
  | ldImm (x : Reg) (nn : Byte)
  /-- `7xnn` add immediate, no flag (R161) -/
  | addImm (x : Reg) (nn : Byte)
  /-- `8xy0` register move (R162) -/
  | ldReg (x y : Reg)
  /-- `8xy1` OR (R163) -/
  | or (x y : Reg)
  /-- `8xy2` AND (R164) -/
  | and (x y : Reg)
  /-- `8xy3` XOR (R165) -/
  | xor (x y : Reg)
  /-- `8xy4` add with carry flag (R166) -/
  | addReg (x y : Reg)
  /-- `8xy5` `Vx - Vy` with no-borrow flag (R167) -/
  | sub (x y : Reg)
  /-- `8xy6` shift right by one (R168) -/
  | shr (x y : Reg)
  /-- `8xy7` `Vy - Vx` with no-borrow flag (R169) -/
  | subn (x y : Reg)
  /-- `8xyE` shift left by one (R170) -/
  | shl (x y : Reg)
  /-- `9xy0` skip if `Vx != Vy` (R146) -/
  | sneReg (x y : Reg)
  /-- `Annn` load the address register (R190) -/
  | ldI (nnn : Addr12)
  /-- `Bnnn` jump to `V0 + nnn` (R147) -/
  | jpV0 (nnn : Addr12)
  /-- `Cxnn` random byte masked (R171) -/
  | rnd (x : Reg) (nn : Byte)
  /-- `Dxyn` draw a sprite of `n` rows (R211) -/
  | drw (x y : Reg) (n : Nibble)
  /-- `Ex9E` skip if key `Vx` is pressed (R230) -/
  | skp (x : Reg)
  /-- `ExA1` skip if key `Vx` is not pressed (R231) -/
  | sknp (x : Reg)
  /-- `Fx07` read the delay timer (R233) -/
  | ldVxDt (x : Reg)
  /-- `Fx0A` wait for a key (R232) -/
  | ldVxK (x : Reg)
  /-- `Fx15` arm the delay timer (R234) -/
  | ldDtVx (x : Reg)
  /-- `Fx18` arm the sound timer (R235) -/
  | ldStVx (x : Reg)
  /-- `Fx1E` add `Vx` to `I` (R191) -/
  | addI (x : Reg)
  /-- `Fx29` point `I` at a font glyph (R192) -/
  | ldF (x : Reg)
  /-- `Fx33` store `Vx` in binary-coded decimal (R193) -/
  | ldB (x : Reg)
  /-- `Fx55` store `V0` .. `Vx` (R194) -/
  | ldMemVx (x : Reg)
  /-- `Fx65` load `V0` .. `Vx` (R195) -/
  | ldVxMem (x : Reg)
  /-- a word that matches no pattern: a no-op (R96, R148) -/
  | unrecognised (w : Word)
  deriving DecidableEq, Repr

end Sys2Proof
end

