-- ==== Sys2Proof/WellFormed.lean ====
section
/-! DEFINITION. Well-formed instructions. The types of the fields admit exactly the values R97 makes
legal, so one thing is left to check: `unrecognised` may hold only a word of the list of R96.
That list is written out here family by family, not computed from the decoder. -/

namespace Sys2Proof

/-- The 21582 unrecognised words, as the table of R96 lists them. -/
def isUnrecognised (w : Word) : Bool :=
  let family := w.toNat / 0x1000
  let n := w.toNat % 0x10
  let nn := w.toNat % 0x100
  let nnn := w.toNat % 0x1000
  (family == 0x0 && nnn != 0x0E0 && nnn != 0x0EE) ||
  (family == 0x5 && n != 0) ||
  (family == 0x8 && [0x8, 0x9, 0xA, 0xB, 0xC, 0xD, 0xF].contains n) ||
  (family == 0x9 && n != 0) ||
  (family == 0xE && nn != 0x9E && nn != 0xA1) ||
  (family == 0xF && !([0x07, 0x0A, 0x15, 0x18, 0x1E, 0x29, 0x33, 0x55, 0x65].contains nn))

/-- The one check (R96, R97). -/
def Instr.wf : Instr → Bool
  | .unrecognised w => isUnrecognised w
  | .cls | .ret | .jp _ | .call _ | .seImm _ _ | .sneImm _ _ | .seReg _ _ | .ldImm _ _ | .addImm _ _
  | .ldReg _ _ | .or _ _ | .and _ _ | .xor _ _ | .addReg _ _ | .sub _ _ | .shr _ _ | .subn _ _
  | .shl _ _ | .sneReg _ _ | .ldI _ | .jpV0 _ | .rnd _ _ | .drw _ _ _ | .skp _ | .sknp _ | .ldVxDt _
  | .ldVxK _ | .ldDtVx _ | .ldStVx _ | .addI _ | .ldF _ | .ldB _ | .ldMemVx _ | .ldVxMem _ => true

end Sys2Proof
end

