-- ==== Sys2Proof/Decode.lean ====
section
/-! DEFINITION. Decoding (30_encoding.md R90 to R96), total on any bytes, the encoder written from the
same table, and the table of R95 itself as mask and match. -/

namespace Sys2Proof

/-! ## The fields of R91 -/

/-- `fam`, bits 15:12. -/
def famOf (w : Word) : Nibble := w.extractLsb' 12 4
/-- `x`, bits 11:8. -/
def xOf (w : Word) : Nibble := w.extractLsb' 8 4
/-- `y`, bits 7:4. -/
def yOf (w : Word) : Nibble := w.extractLsb' 4 4
/-- `n`, bits 3:0. -/
def nOf (w : Word) : Nibble := w.extractLsb' 0 4
/-- `nn`, bits 7:0. -/
def nnOf (w : Word) : Byte := w.extractLsb' 0 8
/-- `nnn`, bits 11:0. -/
def nnnOf (w : Word) : Addr12 := w.extractLsb' 0 12

/-- The register that the `x` field names: every value names one (R21). -/
def xReg (w : Word) : Reg := (xOf w).toFin
/-- The register that the `y` field names. -/
def yReg (w : Word) : Reg := (yOf w).toFin

/-! ## Decode (R94) -/

/-- A literal digit of a pattern that only `STRICT_DECODE` compares (R94, D9, C5). -/
def literalDigit (digit want : Nibble) : Bool := digit == want || !Config.taken.strictDecode

/-- Family 0: `00E0`, `00EE`. -/
def decodeFam0 (w : Word) : Instr :=
  match literalDigit (xOf w) 0x0, nnOf w with
  | true, 0xE0#8 => .cls
  | true, 0xEE#8 => .ret
  | _, _ => .unrecognised w

/-- Family 8, by its low nibble. -/
def decodeFam8 (w : Word) : Instr :=
  match nOf w with
  | 0x0#4 => .ldReg (xReg w) (yReg w)
  | 0x1#4 => .or (xReg w) (yReg w)
  | 0x2#4 => .and (xReg w) (yReg w)
  | 0x3#4 => .xor (xReg w) (yReg w)
  | 0x4#4 => .addReg (xReg w) (yReg w)
  | 0x5#4 => .sub (xReg w) (yReg w)
  | 0x6#4 => .shr (xReg w) (yReg w)
  | 0x7#4 => .subn (xReg w) (yReg w)
  | 0xE#4 => .shl (xReg w) (yReg w)
  | _ => .unrecognised w

/-- Family E, by its low byte. -/
def decodeFamE (w : Word) : Instr :=
  match nnOf w with
  | 0x9E#8 => .skp (xReg w)
  | 0xA1#8 => .sknp (xReg w)
  | _ => .unrecognised w

/-- Family F, by its low byte. -/
def decodeFamF (w : Word) : Instr :=
  match nnOf w with
  | 0x07#8 => .ldVxDt (xReg w)
  | 0x0A#8 => .ldVxK (xReg w)
  | 0x15#8 => .ldDtVx (xReg w)
  | 0x18#8 => .ldStVx (xReg w)
  | 0x1E#8 => .addI (xReg w)
  | 0x29#8 => .ldF (xReg w)
  | 0x33#8 => .ldB (xReg w)
  | 0x55#8 => .ldMemVx (xReg w)
  | 0x65#8 => .ldVxMem (xReg w)
  | _ => .unrecognised w

/-- Decode: the row whose every literal digit equals the word's nibble, else unrecognised (R94, R125).
It depends on the word alone. -/
def decodeWord (w : Word) : Instr :=
  match famOf w with
  | 0x0#4 => decodeFam0 w
  | 0x1#4 => .jp (nnnOf w)
  | 0x2#4 => .call (nnnOf w)
  | 0x3#4 => .seImm (xReg w) (nnOf w)
  | 0x4#4 => .sneImm (xReg w) (nnOf w)
  | 0x5#4 => if literalDigit (nOf w) 0x0 then .seReg (xReg w) (yReg w) else .unrecognised w
  | 0x6#4 => .ldImm (xReg w) (nnOf w)
  | 0x7#4 => .addImm (xReg w) (nnOf w)
  | 0x8#4 => decodeFam8 w
  | 0x9#4 => if literalDigit (nOf w) 0x0 then .sneReg (xReg w) (yReg w) else .unrecognised w
  | 0xA#4 => .ldI (nnnOf w)
  | 0xB#4 => .jpV0 (nnnOf w)
  | 0xC#4 => .rnd (xReg w) (nnOf w)
  | 0xD#4 => .drw (xReg w) (yReg w) (nOf w)
  | 0xE#4 => decodeFamE w
  | _ => decodeFamF w

/-- Why a byte string holds no instruction: no word is illegal (R96), so only its length can fail. -/
inductive DecodeError
  /-- fewer than two bytes (R90) -/
  | truncated
  deriving DecidableEq, Repr

/-- Decode from bytes, the high byte at the lower address (R70, R90); the bytes after it come back. -/
def decode : List Byte → Except DecodeError (Instr × List Byte)
  | hi :: lo :: rest => .ok (decodeWord (hi ++ lo), rest)
  | [_] => .error .truncated
  | [] => .error .truncated

/-! ## Encode (the Encoding lines of the instruction rules) -/

/-- The four bits that name a register. -/
def regField (r : Reg) : Nibble := BitVec.ofFin r

/-- The word of an instruction. -/
def encode : Instr → Word
  | .cls => 0x00E0
  | .ret => 0x00EE
  | .jp nnn => 0x1#4 ++ nnn
  | .call nnn => 0x2#4 ++ nnn
  | .seImm x nn => 0x3#4 ++ regField x ++ nn
  | .sneImm x nn => 0x4#4 ++ regField x ++ nn
  | .seReg x y => 0x5#4 ++ regField x ++ regField y ++ 0x0#4
  | .ldImm x nn => 0x6#4 ++ regField x ++ nn
  | .addImm x nn => 0x7#4 ++ regField x ++ nn
  | .ldReg x y => 0x8#4 ++ regField x ++ regField y ++ 0x0#4
  | .or x y => 0x8#4 ++ regField x ++ regField y ++ 0x1#4
  | .and x y => 0x8#4 ++ regField x ++ regField y ++ 0x2#4
  | .xor x y => 0x8#4 ++ regField x ++ regField y ++ 0x3#4
  | .addReg x y => 0x8#4 ++ regField x ++ regField y ++ 0x4#4
  | .sub x y => 0x8#4 ++ regField x ++ regField y ++ 0x5#4
  | .shr x y => 0x8#4 ++ regField x ++ regField y ++ 0x6#4
  | .subn x y => 0x8#4 ++ regField x ++ regField y ++ 0x7#4
  | .shl x y => 0x8#4 ++ regField x ++ regField y ++ 0xE#4
  | .sneReg x y => 0x9#4 ++ regField x ++ regField y ++ 0x0#4
  | .ldI nnn => 0xA#4 ++ nnn
  | .jpV0 nnn => 0xB#4 ++ nnn
  | .rnd x nn => 0xC#4 ++ regField x ++ nn
  | .drw x y n => 0xD#4 ++ regField x ++ regField y ++ n
  | .skp x => 0xE#4 ++ regField x ++ 0x9E#8
  | .sknp x => 0xE#4 ++ regField x ++ 0xA1#8
  | .ldVxDt x => 0xF#4 ++ regField x ++ 0x07#8
  | .ldVxK x => 0xF#4 ++ regField x ++ 0x0A#8
  | .ldDtVx x => 0xF#4 ++ regField x ++ 0x15#8
  | .ldStVx x => 0xF#4 ++ regField x ++ 0x18#8
  | .addI x => 0xF#4 ++ regField x ++ 0x1E#8
  | .ldF x => 0xF#4 ++ regField x ++ 0x29#8
  | .ldB x => 0xF#4 ++ regField x ++ 0x33#8
  | .ldMemVx x => 0xF#4 ++ regField x ++ 0x55#8
  | .ldVxMem x => 0xF#4 ++ regField x ++ 0x65#8
  | .unrecognised w => w

/-- The two bytes of an instruction as memory holds them, high byte first (R70). -/
def encodeBytes (i : Instr) : List Byte := [(encode i).extractLsb' 8 8, (encode i).extractLsb' 0 8]

/-! ## The table of R95 -/

/-- A row of R95: "the row is selected when `IR & mask = match`". -/
structure Row where
  mnemonic : String
  mask : Word
  pattern : Word
  deriving DecidableEq, Repr

/-- Does the row select the word? -/
def Row.selects (r : Row) (w : Word) : Bool := w &&& r.mask == r.pattern

/-- Families 0 to 7 of R95. -/
def rows0to7 : List Row :=
  [⟨"CLS", 0xFFFF, 0x00E0⟩, ⟨"RET", 0xFFFF, 0x00EE⟩, ⟨"JP", 0xF000, 0x1000⟩, ⟨"CALL", 0xF000, 0x2000⟩,
   ⟨"SE_IMM", 0xF000, 0x3000⟩, ⟨"SNE_IMM", 0xF000, 0x4000⟩, ⟨"SE_REG", 0xF00F, 0x5000⟩,
   ⟨"LD_IMM", 0xF000, 0x6000⟩, ⟨"ADD_IMM", 0xF000, 0x7000⟩]

/-- Families 8 to D of R95. -/
def rows8toD : List Row :=
  [⟨"LD_REG", 0xF00F, 0x8000⟩, ⟨"OR", 0xF00F, 0x8001⟩, ⟨"AND", 0xF00F, 0x8002⟩, ⟨"XOR", 0xF00F, 0x8003⟩,
   ⟨"ADD_REG", 0xF00F, 0x8004⟩, ⟨"SUB", 0xF00F, 0x8005⟩, ⟨"SHR", 0xF00F, 0x8006⟩,
   ⟨"SUBN", 0xF00F, 0x8007⟩, ⟨"SHL", 0xF00F, 0x800E⟩, ⟨"SNE_REG", 0xF00F, 0x9000⟩,
   ⟨"LD_I", 0xF000, 0xA000⟩, ⟨"JP_V0", 0xF000, 0xB000⟩, ⟨"RND", 0xF000, 0xC000⟩, ⟨"DRW", 0xF000, 0xD000⟩]

/-- Families E and F of R95. -/
def rowsEtoF : List Row :=
  [⟨"SKP", 0xF0FF, 0xE09E⟩, ⟨"SKNP", 0xF0FF, 0xE0A1⟩, ⟨"LD_VX_DT", 0xF0FF, 0xF007⟩,
   ⟨"LD_VX_K", 0xF0FF, 0xF00A⟩, ⟨"LD_DT_VX", 0xF0FF, 0xF015⟩, ⟨"LD_ST_VX", 0xF0FF, 0xF018⟩,
   ⟨"ADD_I", 0xF0FF, 0xF01E⟩, ⟨"LD_F", 0xF0FF, 0xF029⟩, ⟨"LD_B", 0xF0FF, 0xF033⟩,
   ⟨"LD_MEM_VX", 0xF0FF, 0xF055⟩, ⟨"LD_VX_MEM", 0xF0FF, 0xF065⟩]

/-- The 34 rows of R95, in its order, under the mnemonics of spec/opcode_table.json. -/
def opcodeTable : List Row := rows0to7 ++ rows8toD ++ rowsEtoF

/-- The row of spec/opcode_table.json that an instruction stands for. -/
def Instr.mnemonic : Instr → String
  | .cls => "CLS"
  | .ret => "RET"
  | .jp _ => "JP"
  | .call _ => "CALL"
  | .seImm _ _ => "SE_IMM"
  | .sneImm _ _ => "SNE_IMM"
  | .seReg _ _ => "SE_REG"
  | .ldImm _ _ => "LD_IMM"
  | .addImm _ _ => "ADD_IMM"
  | .ldReg _ _ => "LD_REG"
  | .or _ _ => "OR"
  | .and _ _ => "AND"
  | .xor _ _ => "XOR"
  | .addReg _ _ => "ADD_REG"
  | .sub _ _ => "SUB"
  | .shr _ _ => "SHR"
  | .subn _ _ => "SUBN"
  | .shl _ _ => "SHL"
  | .sneReg _ _ => "SNE_REG"
  | .ldI _ => "LD_I"
  | .jpV0 _ => "JP_V0"
  | .rnd _ _ => "RND"
  | .drw _ _ _ => "DRW"
  | .skp _ => "SKP"
  | .sknp _ => "SKNP"
  | .ldVxDt _ => "LD_VX_DT"
  | .ldVxK _ => "LD_VX_K"
  | .ldDtVx _ => "LD_DT_VX"
  | .ldStVx _ => "LD_ST_VX"
  | .addI _ => "ADD_I"
  | .ldF _ => "LD_F"
  | .ldB _ => "LD_B"
  | .ldMemVx _ => "LD_MEM_VX"
  | .ldVxMem _ => "LD_VX_MEM"
  | .unrecognised _ => "UNRECOGNISED"

/-- The instruction the decoder reads from a word given as a number of `nbits` bits, laid out as the
hardware stores it: one 16-bit word, high byte first. Longer encodings do not exist (R90). -/
def decodeTableWord (nbits w : Nat) : Option Instr :=
  if nbits ≤ 16 then
    let word : Word := BitVec.ofNat 16 (w % 2 ^ nbits)
    match decode [word.extractLsb' 8 8, word.extractLsb' 0 8] with
    | .ok (i, _) => some i
    | .error _ => none
  else none

end Sys2Proof
end

