-- ==== Sys2Proof/Machine/State.lean ====
section
/-! DEFINITION. The state of the core (10_state.md R20), plain data, and the state after reset (R40). -/

namespace Sys2Proof.Machine

/-- `RUN` (R34). -/
inductive RunState
  | running
  | awaitingKey
  | halted
  deriving DecidableEq, Repr

/-- `FAULT`, the cause of the halt (R35, R250). -/
inductive FaultCause
  | noFault
  | fetchOutOfRange
  | stackOverflow
  | stackUnderflow
  | dataAddress
  | fontWrite
  | keyIndex
  | externalStop
  deriving DecidableEq, Repr

/-- A timer: the byte it was last armed with and the time of that arming (R29). -/
structure Timer where
  value : Byte
  armedAt : Nat
  deriving DecidableEq, Repr

/-- `FB`: 32 rows of 64 pixels (R33, R267); bit `c` of a row is the pixel of column `c` (log entry 7). -/
abbrev Framebuffer := Vector (BitVec 64) 32

/-- `MEM` as the cells that differ from the reset contents, by rising address (log entry 27). -/
abbrev Memory := List Host.Cell

/-- The inputs that one step samples at its start (R37). Time is given as the time units since the
step before, so that `in.now` never decreases (log entry 1). `rand = none`: the environment lists no
byte for this step, and a draw takes the free value (log entry 4). -/
structure Sample where
  elapsed : Nat
  /-- bit `k` is `in.keys[k]` -/
  keys : BitVec 16
  keyEvent : Option Key
  rand : Option Byte
  stopReq : Bool
  deriving DecidableEq, Repr

/-- A sample in which nothing happens: no time passes, no key, no stop request. -/
def Sample.quiet : Sample :=
  { elapsed := 0, keys := 0, keyEvent := none, rand := none, stopReq := false }

structure State where
  /-- the run's parameters, which no step changes (R39) -/
  launch : Launch
  /-- `MEM` (R60) -/
  mem : Memory
  /-- `V0` .. `VF` (R21) -/
  v : Vector Byte 16
  /-- `I` (R23) -/
  i : Word
  /-- `PC` (R24) -/
  pc : Word
  /-- `IR` (R25) -/
  ir : Word
  /-- `STACK` (R26) -/
  stack : Vector Word 16
  /-- `SP`, the number of valid entries, 0 to 16 (R26, D10) -/
  sp : Fin 17
  /-- `DT` (R29) -/
  dt : Timer
  /-- `ST` (R29) -/
  st : Timer
  /-- `FB` (R33) -/
  fb : Framebuffer
  /-- `RUN` (R34) -/
  run : RunState
  /-- `FAULT` (R35) -/
  fault : FaultCause
  /-- `FAULT_INFO` (R35, R258) -/
  faultInfo : Word
  /-- the model's own: the `present` events since reset, oldest first (R38, R267; log entry 6) -/
  presented : List Framebuffer
  /-- the model's own: `in.now` of the latest step (R37) -/
  now : Nat
  /-- the model's own: the sample of the latest step (R37) -/
  input : Sample
  /-- the model's own: the samples of the steps to come, oldest first (log entry 1) -/
  pending : List Sample
  /-- the model's own: how many free random bytes have been drawn (log entry 4) -/
  draws : Nat
  deriving DecidableEq, Repr

/-- Why the model itself would stop. It never does: every fault of the hardware is a Halted state
(R257), and each of its addresses is checked before it is used, so the type has no constructor
(safe; log entry 30). -/
inductive Fault
  deriving DecidableEq, Repr

/-- Why the model has no meaning for an instruction. -/
inductive Refusal
  /-- raised by exec's own arm for an instruction not modelled yet; safe; no arm uses it any more -/
  | notModelled (mnemonic : String)
  deriving DecidableEq, Repr

/-- `reset(ROM)` (R290, R40): the whole state from nothing but the launch parameters. -/
def State.resetWith (launch : Launch) : State where
  launch := launch
  mem := []
  v := Vector.ofFn fun k => Config.resetFill 8 k
  i := Config.resetFill 16 16
  pc := 0x200
  ir := Config.resetFill 16 17
  stack := Vector.ofFn fun k => Config.resetFill 16 (32 + k)
  sp := 0
  dt := ⟨Config.resetFill 8 18, 0⟩
  st := ⟨Config.resetFill 8 19, 0⟩
  fb := Vector.ofFn fun r => Config.resetFill 64 (64 + r)
  run := .running
  fault := .noFault
  faultInfo := 0
  presented := []
  now := 0
  input := .quiet
  pending := []
  draws := 0

/-- The machine right after reset, with the default launch (R40, R291). -/
def State.reset : State := State.resetWith .default

end Sys2Proof.Machine
end

