-- ==== Sys2Proof/Machine/Memory.lean ====
section
/-! DEFINITION. Memory as data: the one read and the one write of a cell, over a list of the cells that
differ from what an unlisted address reads as (20_memory.md R60, R72, R73). -/

namespace Sys2Proof.Machine

/-- What an address that nothing has written reads as: the reset contents (R40, R61 to R64). -/
def resetByte (launch : Launch) (a : Nat) : Byte :=
  if h : a < 0x50 then launch.font[a]
  else if 0x200 ≤ a then launch.rom.val.getD (a - 0x200) (Config.resetFill 8 (0x1000 + a))
  else Config.resetFill 8 (0x1000 + a)

/-- The byte at an address. -/
def Memory.read (unlisted : Nat → Byte) : Memory → Nat → Byte
  | [], a => unlisted a
  | (k, b) :: rest, a => if k = a then b else Memory.read unlisted rest a

/-- Put a cell in front, unless it says what an unlisted address reads as anyway. -/
def Memory.cons (unlisted : Nat → Byte) (a : Nat) (b : Byte) (rest : Memory) : Memory :=
  if b = unlisted a then rest else (a, b) :: rest

/-- Write one byte, keeping the canonical form. -/
def Memory.write (unlisted : Nat → Byte) : Memory → Nat → Byte → Memory
  | [], a, b => Memory.cons unlisted a b []
  | (k, c) :: rest, a, b =>
    if a < k then Memory.cons unlisted a b ((k, c) :: rest)
    else if a = k then Memory.cons unlisted a b rest
    else (k, c) :: Memory.write unlisted rest a b

/-- The canonical form: addresses inside memory, strictly rising, no entry equal to what an unlisted
address reads as. -/
def Memory.wf (unlisted : Nat → Byte) : Memory → Bool
  | [] => true
  | (k, b) :: rest =>
    decide (k < 0x1000) && b != unlisted k && rest.all (fun cell => decide (k < cell.1)) &&
      Memory.wf unlisted rest

end Sys2Proof.Machine
end

