-- ==== Sys2Proof/Machine/Ops.lean ====
section
/-! DEFINITION. The named operations over registers, memory, stack, timers, inputs and outputs
(00_scope.md R9, R10), and the taking of a fault. -/

namespace Sys2Proof.Machine

/-! ## Registers (R9) -/

/-- `V[k]`. -/
def State.reg (s : State) (k : Reg) : Byte := s.v.get k

/-- `V[k] <- b`. -/
def State.setReg (s : State) (k : Reg) (b : Byte) : State := { s with v := s.v.set k b }

/-- `I <- a`. -/
def State.setI (s : State) (a : Word) : State := { s with i := a }

/-- `PC <- a`. -/
def State.setPc (s : State) (a : Word) : State := { s with pc := a }

/-- `RUN <- r`. -/
def State.setRun (s : State) (r : RunState) : State := { s with run := r }

/-- `FB <- fb`. -/
def State.setFb (s : State) (fb : Framebuffer) : State := { s with fb := fb }

/-- `V[k] <- b0, V[k+1] <- b1, ...`, ascending (R127). -/
def State.setRegs (s : State) : Nat → List Byte → State
  | _, [] => s
  | k, b :: rest => State.setRegs (s.setReg (Fin.ofNat 16 k) b) (k + 1) rest

/-- `skip` (R149). -/
def State.skip (s : State) : State := s.setPc (s.pc + 2)

/-! ## Taking a fault (R257); there is no return from one (R260), only reset -/

/-- A fault about to be raised: its cause and its information word (R250). -/
structure Trap where
  cause : FaultCause
  info : Word
  deriving DecidableEq, Repr

/-- `raise F(info)` (R257): Halted, cause and information, nothing else. -/
def State.raise (s : State) (t : Trap) : State :=
  { s with run := .halted, fault := t.cause, faultInfo := t.info }

/-- The end of a phase that may have raised: its writes stand, or they are discarded and the fault is
taken in the state the phase began with (R128, R257). -/
def State.settle (s : State) : Except Trap State → State
  | .ok t => t
  | .error trap => s.raise trap

/-- The stop request (R122): the same three fields, with the code of `ExternalStop` and `PC`. -/
def State.stop (s : State) : State := s.raise ⟨.externalStop, s.pc⟩

/-! ## Memory (R65 to R67) -/

/-- `MEM[a]`, no check. -/
def State.byteAt (s : State) (a : Nat) : Byte := Memory.read (resetByte s.launch) s.mem a

/-- `MEM[a] <- b`, no check. -/
def State.poke (s : State) (a : Nat) (b : Byte) : State :=
  { s with mem := Memory.write (resetByte s.launch) s.mem a b }

/-- The cell of a data address that has passed the range check; the two differ only under
`DATA_OOB = wrap` (D6). -/
def cellOf (a : Nat) : Nat := a % 0x1000

/-- The check of `MemRead` (R65). `BitVec.ofNat 16 a` is `a mod 65536`. -/
def readTrap (a : Nat) : Option Trap :=
  if 0xFFF < a then
    match Config.taken.dataOob with
    | .fault => some ⟨.dataAddress, BitVec.ofNat 16 a⟩
    | .wrap => none
  else none

/-- The checks of `MemWrite`, the range before the font (R66, R259). -/
def writeTrap (a : Nat) : Option Trap :=
  match readTrap a with
  | some t => some t
  | none =>
    if cellOf a < 0x50 then
      match Config.taken.fontWrite with
      | .fault => some ⟨.fontWrite, BitVec.ofNat 16 a⟩
      | .perform => none
      | .ignore => none
    else none

/-- `MemRead(a, 1)` (R65). -/
def State.memRead (s : State) (a : Nat) : Except Trap Byte :=
  match readTrap a with
  | some t => .error t
  | none => .ok (s.byteAt (cellOf a))

/-- Is a store to this cell dropped? Only under `FONT_WRITE = ignore` (D7). -/
def dropsStore (cell : Nat) : Bool :=
  decide (cell < 0x50) && Config.taken.fontWrite == .ignore

/-- `MemWrite(a, 1, b)` (R66). -/
def State.memWrite (s : State) (a : Nat) (b : Byte) : Except Trap State :=
  match writeTrap a with
  | some t => .error t
  | none => .ok (if dropsStore (cellOf a) then s else s.poke (cellOf a) b)

/-- The bytes at `a`, `a+1`, ..., `a+n-1`, ascending (R69, R70, R195, R211): the first address that may
not be read raises, and then nothing has been written yet. -/
def State.loadBytes (s : State) (a : Nat) : Nat → Except Trap (List Byte)
  | 0 => .ok []
  | n + 1 =>
    match s.memRead a with
    | .error t => .error t
    | .ok b =>
      match s.loadBytes (a + 1) n with
      | .error t => .error t
      | .ok rest => .ok (b :: rest)

/-- Store bytes at `a`, `a+1`, ..., ascending (R70, R193, R194). The first address that may not be
written raises, and the caller's `settle` then discards the bytes before it: this is the validation of
every address before any write. -/
def State.storeBytes (s : State) (a : Nat) : List Byte → Except Trap State
  | [] => .ok s
  | b :: rest =>
    match s.memWrite a b with
    | .error t => .error t
    | .ok t => t.storeBytes (a + 1) rest

/-- `FetchWord(a)` (R67): big-endian (R70). -/
def State.fetchWord (s : State) (a : Nat) : Except Trap Word :=
  if Config.taken.fetchLimit.val ≤ a then .error ⟨.fetchOutOfRange, BitVec.ofNat 16 a⟩
  else .ok (s.byteAt a ++ s.byteAt (a + 1))

/-- Fetch (R124): `IR` and `PC` are written only if the word could be read. -/
def State.fetch (s : State) : Except Trap State :=
  match s.fetchWord s.pc.toNat with
  | .error t => .error t
  | .ok w => .ok { s with ir := w, pc := s.pc + 2 }

/-! ## Call stack (R26 to R28) -/

/-- `Push(a)` (R27). -/
def State.push (s : State) (a : Word) : Except Trap State :=
  if h : s.sp.val < 16 then
    .ok { s with stack := s.stack.set s.sp.val a h, sp := ⟨s.sp.val + 1, Nat.succ_lt_succ h⟩ }
  else .error ⟨.stackOverflow, a⟩

/-- `Pop()` (R28): the entry keeps its bits. -/
def State.pop (s : State) : Except Trap (Word × State) :=
  if s.sp.val = 0 then .error ⟨.stackUnderflow, 0⟩
  else
    have inStack : s.sp.val - 1 < 16 := by have := s.sp.isLt; omega
    .ok (s.stack[s.sp.val - 1], { s with sp := ⟨s.sp.val - 1, Nat.lt_succ_of_lt inStack⟩ })

/-! ## Timers (R29 to R32) -/

/-- `TimerRead(T)` at time `now`: `max(0, value - (now - at) div Q)` (R30). -/
def Timer.read (t : Timer) (q now : Nat) : Byte :=
  BitVec.ofNat 8 (t.value.toNat - (now - t.armedAt) / q)

/-- `TimerRead(DT)` in the current step. -/
def State.readDt (s : State) : Byte := s.dt.read s.launch.q.val s.now

/-- `TimerArm(DT, b)` (R31). -/
def State.armDt (s : State) (b : Byte) : State := { s with dt := ⟨b, s.now⟩ }

/-- `TimerArm(ST, b)` (R31). -/
def State.armSt (s : State) (b : Byte) : State := { s with st := ⟨b, s.now⟩ }

/-- The counter form of a timer (R32): an 8-bit down-counter with a private prescaler. It is no part
of State; R32 says that it is observably the same. -/
structure DownCounter where
  cnt : Nat
  pre : Nat
  deriving DecidableEq, Repr

/-- Arming the counter form (R32). -/
def DownCounter.arm (b : Byte) : DownCounter := ⟨b.toNat, 0⟩

/-- One time unit of the counter form (R32). -/
def DownCounter.unit (q : Nat) (d : DownCounter) : DownCounter :=
  if d.pre + 1 = q then ⟨d.cnt - 1, 0⟩ else ⟨d.cnt, d.pre + 1⟩

/-- `k` time units of the counter form. -/
def DownCounter.after (q : Nat) (d : DownCounter) : Nat → DownCounter
  | 0 => d
  | k + 1 => DownCounter.unit q (d.after q k)

/-! ## Framebuffer (R33) -/

/-- `FB[r][c]`. -/
def pixel (fb : Framebuffer) (r : Fin 32) (c : Fin 64) : Bool := (fb.get r).getLsbD c.val

/-- `FB[r][c] <- on`. -/
def setPixel (fb : Framebuffer) (r : Fin 32) (c : Fin 64) (on : Bool) : Framebuffer :=
  fb.set r (if on then fb.get r ||| (1#64 <<< c.val) else fb.get r &&& ~~~(1#64 <<< c.val))

/-- All pixels off (R210). -/
def clearedFb : Framebuffer := Vector.replicate 32 0

/-- `emit Present` (R267): one event with the whole framebuffer. -/
def State.present (s : State) : State := { s with presented := s.presented ++ [s.fb] }

/-! ## Inputs (R37, R120) -/

/-- The sample of a step for which the environment has listed none (log entry 5): no time passes, the
key levels stay, no event, no stop request, the random byte is a free value. -/
def Sample.idle (last : Sample) : Sample :=
  { elapsed := 0, keys := last.keys, keyEvent := none, rand := none, stopReq := false }

/-- Sample the inputs, once, at the start of a step (R120). -/
def State.sample (s : State) : State :=
  match s.pending with
  | [] => { s with input := s.input.idle }
  | p :: rest => { s with input := p, now := s.now + p.elapsed, pending := rest }

/-- `in.keys[k]`. -/
def State.keyPressed (s : State) (k : Key) : Bool := s.input.keys.getLsbD k.val

/-- `in.rand`, and the state after it has been drawn: a listed byte, or the next free value. -/
def State.drawByte (s : State) : Byte × State :=
  match s.input.rand with
  | some b => (b, s)
  | none => (Config.freeRand s.draws, { s with draws := s.draws + 1 })

/-- The key-wait step (R123): the destination register comes from `IR[11:8]`. -/
def State.keyWait (s : State) : State :=
  match s.input.keyEvent with
  | none => s
  | some k => (s.setReg (xReg s.ir) (BitVec.ofNat 8 k.val)).setRun .running

/-! ## Placing an instruction from outside (log entry 25) -/

/-- Take the stop request out of the sample of the next step. -/
def withoutStop : List Sample → List Sample
  | [] => []
  | p :: rest => { p with stopReq := false } :: rest

/-- The state whose next step runs the word: Running, no stop request in the next sample, `PC` where
a fetch is possible, the word in the two bytes there. -/
def State.plant (s : State) (w : Word) : State :=
  let pc := if Config.taken.fetchLimit.val ≤ s.pc.toNat then 0x200 else s.pc
  let ready := { s with run := .running, pending := withoutStop s.pending, pc := pc }
  (ready.poke pc.toNat (w.extractLsb' 8 8)).poke (pc.toNat + 1) (w.extractLsb' 0 8)

end Sys2Proof.Machine
end

