-- ==== Sys2Proof/Machine/Operands.lean ====
section
/-! DEFINITION. The operand forms (30_encoding.md R93, 43_index_memory.md R196): registers by field,
unsigned immediates, the base `I` with a constant offset, and the writes of a result with its flag. -/

namespace Sys2Proof.Machine

/-- `zext_16(nnn)` (R93). -/
def addrOf (nnn : Addr12) : Word := nnn.setWidth 16

/-- `zext_16(b)` of a byte (R8). -/
def widen (b : Byte) : Word := b.setWidth 16

/-- The address of byte 0 of a memory operand: `I`, as an unbounded integer, so that `I + k` does not
wrap (R69, R196). -/
def State.base (s : State) : Nat := s.i.toNat

/-- The register that `8xy6` and `8xyE` shift (R168, `SHIFT_SOURCE`). -/
def State.shiftOperand (s : State) (x y : Reg) : Byte :=
  match Config.taken.shiftSource with
  | .vx => s.reg x
  | .vy => s.reg y

/-- Flag first, result second: with `x = F` the result remains (R127, D23). -/
def State.setFlagAndReg (s : State) (flag : Bool) (x : Reg) (result : Byte) : State :=
  (s.setReg VF (flagByte flag)).setReg x result

/-- `V0` .. `Vx` inclusive, ascending (R194). -/
def State.regsUpTo (s : State) (x : Reg) : List Byte := s.v.toList.take (x.val + 1)

/-- The three decimal digits of a byte: hundreds, tens, ones (R193). -/
def decimalDigits (b : Byte) : List Byte :=
  [BitVec.ofNat 8 (b.toNat / 100), BitVec.ofNat 8 (b.toNat / 10 % 10), BitVec.ofNat 8 (b.toNat % 10)]

/-- The address of the glyph of the low nibble: `5 * (b & 0xF)` (R192, R62). -/
def glyphAddr (b : Byte) : Word := BitVec.ofNat 16 (5 * (b &&& 0xF).toNat)

/-- Is the key that `b` names pressed? Above 15 there is no such key (R236, D8; the other two answers
are the alternatives of D8). -/
def State.keyTest (s : State) (b : Byte) : Except Trap Bool :=
  if 15 < b.toNat then
    match Config.taken.keyRange with
    | .fault => .error ⟨.keyIndex, widen b⟩
    | .lowNibble => .ok (s.keyPressed (Fin.ofNat 16 b.toNat))
    | .notPressed => .ok false
  else .ok (s.keyPressed (Fin.ofNat 16 b.toNat))

/-- Skip on a condition (R143 to R146, R230, R231). -/
def State.skipIf (s : State) (condition : Bool) : State := if condition then s.skip else s

end Sys2Proof.Machine
end

