-- ==== Sys2Proof/Machine/Flow.lean ====
section
/-! DEFINITION. Control flow (41_flow.md). `s` is the state of the execute phase: `IR` holds the
instruction and `PC` its address plus 2 (R126). -/

namespace Sys2Proof.Machine

/-- What every meaning answers: this model has no instruction that stops. -/
abbrev Result := Host.Outcome State Fault Refusal

/-- `00EE` (R140). -/
def execRet (s : State) : Result :=
  .next (s.settle (match s.pop with
    | .error t => .error t
    | .ok (target, popped) => .ok (popped.setPc target)))

/-- `1nnn` (R141). -/
def execJp (nnn : Addr12) (s : State) : Result := .next (s.setPc (addrOf nnn))

/-- `2nnn` (R142): the return address is the fetch-advanced `PC`. -/
def execCall (nnn : Addr12) (s : State) : Result :=
  .next (s.settle (match s.push s.pc with
    | .error t => .error t
    | .ok pushed => .ok (pushed.setPc (addrOf nnn))))

/-- `3xnn` (R143). -/
def execSeImm (x : Reg) (nn : Byte) (s : State) : Result := .next (s.skipIf (s.reg x == nn))

/-- `4xnn` (R144). -/
def execSneImm (x : Reg) (nn : Byte) (s : State) : Result := .next (s.skipIf (s.reg x != nn))

/-- `5xy0` (R145). -/
def execSeReg (x y : Reg) (s : State) : Result := .next (s.skipIf (s.reg x == s.reg y))

/-- `9xy0` (R146). -/
def execSneReg (x y : Reg) (s : State) : Result := .next (s.skipIf (s.reg x != s.reg y))

/-- `Bnnn` (R147): always `V0`; the sum is 16 bits, not reduced modulo 4096. -/
def execJpV0 (nnn : Addr12) (s : State) : Result := .next (s.setPc (widen (s.reg 0) + addrOf nnn))

/-- An unrecognised word (R148): nothing beyond what fetch did. -/
def execUnrecognised (_ : Word) (s : State) : Result := .next s

end Sys2Proof.Machine
end

