-- ==== Sys2Proof/Machine/Alu.lean ====
section
/-! DEFINITION. Loads, arithmetic, logic, shifts, random (42_alu.md). Arithmetic is unsigned and modulo
256 (R172); operands are read from `s`, before any write (R126). -/

namespace Sys2Proof.Machine

/-- `6xnn` (R160). -/
def execLdImm (x : Reg) (nn : Byte) (s : State) : Result := .next (s.setReg x nn)

/-- `7xnn` (R161). -/
def execAddImm (x : Reg) (nn : Byte) (s : State) : Result := .next (s.setReg x (s.reg x + nn))

/-- `8xy0` (R162). -/
def execLdReg (x y : Reg) (s : State) : Result := .next (s.setReg x (s.reg y))

/-- `8xy1` (R163). -/
def execOr (x y : Reg) (s : State) : Result := .next (s.setReg x (s.reg x ||| s.reg y))

/-- `8xy2` (R164). -/
def execAnd (x y : Reg) (s : State) : Result := .next (s.setReg x (s.reg x &&& s.reg y))

/-- `8xy3` (R165). -/
def execXor (x y : Reg) (s : State) : Result := .next (s.setReg x (s.reg x ^^^ s.reg y))

/-- `8xy4` (R166). -/
def execAddReg (x y : Reg) (s : State) : Result :=
  .next (s.setFlagAndReg (carryOut (s.reg x) (s.reg y)) x (s.reg x + s.reg y))

/-- `8xy5` (R167). -/
def execSub (x y : Reg) (s : State) : Result :=
  .next (s.setFlagAndReg (noBorrow (s.reg x) (s.reg y)) x (s.reg x - s.reg y))

/-- `8xy6` (R168). -/
def execShr (x y : Reg) (s : State) : Result :=
  .next (s.setFlagAndReg (shiftedOutRight (s.shiftOperand x y)) x (s.shiftOperand x y >>> 1))

/-- `8xy7` (R169). -/
def execSubn (x y : Reg) (s : State) : Result :=
  .next (s.setFlagAndReg (noBorrow (s.reg y) (s.reg x)) x (s.reg y - s.reg x))

/-- `8xyE` (R170). -/
def execShl (x y : Reg) (s : State) : Result :=
  .next (s.setFlagAndReg (shiftedOutLeft (s.shiftOperand x y)) x (s.shiftOperand x y <<< 1))

/-- `Cxnn` (R171): the random byte is an input of the step (R266). -/
def execRnd (x : Reg) (nn : Byte) (s : State) : Result :=
  .next (s.drawByte.2.setReg x (s.drawByte.1 &&& nn))

end Sys2Proof.Machine
end

