-- ==== Sys2Proof/Machine/Devices.lean ====
section
/-! DEFINITION. Keypad and timer instructions (45_keypad_timers.md). -/

namespace Sys2Proof.Machine

/-- `Ex9E` (R230). -/
def execSkp (x : Reg) (s : State) : Result :=
  .next (s.settle (match s.keyTest (s.reg x) with
    | .error t => .error t
    | .ok pressed => .ok (s.skipIf pressed)))

/-- `ExA1` (R231). -/
def execSknp (x : Reg) (s : State) : Result :=
  .next (s.settle (match s.keyTest (s.reg x) with
    | .error t => .error t
    | .ok pressed => .ok (s.skipIf (!pressed))))

/-- `Fx07` (R233). -/
def execLdVxDt (x : Reg) (s : State) : Result := .next (s.setReg x s.readDt)

/-- `Fx0A` (R232): the register is written by a later key-wait step, which finds `x` in `IR` (R123). -/
def execLdVxK (_ : Reg) (s : State) : Result := .next (s.setRun .awaitingKey)

/-- `Fx15` (R234). -/
def execLdDtVx (x : Reg) (s : State) : Result := .next (s.armDt (s.reg x))

/-- `Fx18` (R235). -/
def execLdStVx (x : Reg) (s : State) : Result := .next (s.armSt (s.reg x))

end Sys2Proof.Machine
end

