-- ==== Sys2Proof/Machine/Display.lean ====
section
/-! DEFINITION. Clear and draw (44_display.md). The drawing visits the pixels in the order of the loops of
R211: rows from the top, in each row the eight bits from the most significant. -/

namespace Sys2Proof.Machine

/-- A picture under way: the framebuffer and whether a pixel has collided so far. -/
structure Canvas where
  fb : Framebuffer
  hit : Bool
  deriving DecidableEq, Repr

/-- One pixel that a sprite visits, and the sprite bit that lands on it. -/
structure Visit where
  row : Fin 32
  col : Fin 64
  bit : Bool
  deriving DecidableEq, Repr

/-- The pixels of a sprite at origin `(vx, vy)` (R211 step 2); each wraps on its own (R212). -/
def visits (vx vy : Byte) (sprite : List Byte) : List Visit :=
  (List.range sprite.length).flatMap fun r => (List.range 8).map fun b =>
    ⟨Fin.ofNat 32 (vy.toNat + r), Fin.ofNat 64 (vx.toNat + b), (sprite.getD r 0).getLsbD (7 - b)⟩

/-- XOR one sprite bit into its pixel, and remember a collision (R211 step 3, R213). -/
def drawBit (canvas : Canvas) (visit : Visit) : Canvas :=
  let old := pixel canvas.fb visit.row visit.col
  let new := old ^^ visit.bit
  ⟨setPixel canvas.fb visit.row visit.col new, canvas.hit || collides old new⟩

/-- A whole sprite; the collision starts cleared (R211 step 1). -/
def drawSprite (vx vy : Byte) (sprite : List Byte) (fb : Framebuffer) : Canvas :=
  (visits vx vy sprite).foldl drawBit ⟨fb, false⟩

/-- `00E0` (R210). -/
def execCls (s : State) : Result := .next (s.setFb clearedFb).present

/-- `Dxyn` (R211): the rows are read before anything is written, `VF` is the collision flag, one
`present` event; `n = 0` reads nothing and cannot fault (R214). -/
def execDrw (x y : Reg) (n : Nibble) (s : State) : Result :=
  .next (s.settle (match s.loadBytes s.base n.toNat with
    | .error t => .error t
    | .ok sprite =>
      let canvas := drawSprite (s.reg x) (s.reg y) sprite s.fb
      .ok ((s.setFb canvas.fb).setReg VF (flagByte canvas.hit)).present))

end Sys2Proof.Machine
end

