-- ==== Sys2Proof/Machine/Index.lean ====
section
/-! DEFINITION. The address register and the memory instructions (43_index_memory.md). No memory access
changes `I` (R196). -/

namespace Sys2Proof.Machine

/-- `Annn` (R190). -/
def execLdI (nnn : Addr12) (s : State) : Result := .next (s.setI (addrOf nnn))

/-- `Fx1E` (R191): modulo 65536, no flag. -/
def execAddI (x : Reg) (s : State) : Result := .next (s.setI (s.i + widen (s.reg x)))

/-- `Fx29` (R192). -/
def execLdF (x : Reg) (s : State) : Result := .next (s.setI (glyphAddr (s.reg x)))

/-- `Fx33` (R193). -/
def execLdB (x : Reg) (s : State) : Result :=
  .next (s.settle (s.storeBytes s.base (decimalDigits (s.reg x))))

/-- `Fx55` (R194). -/
def execLdMemVx (x : Reg) (s : State) : Result :=
  .next (s.settle (s.storeBytes s.base (s.regsUpTo x)))

/-- `Fx65` (R195). -/
def execLdVxMem (x : Reg) (s : State) : Result :=
  .next (s.settle (match s.loadBytes s.base (x.val + 1) with
    | .error t => .error t
    | .ok bytes => .ok (s.setRegs 0 bytes)))

end Sys2Proof.Machine
end

