-- ==== Sys2Proof/Machine/Cycle.lean ====
section
/-! DEFINITION. The step cycle (40_step_cycle.md R120): sample the inputs, then the first of Halted, stop
request, key wait, or fetch, decode and execute (D15). -/

namespace Sys2Proof.Machine

/-- Fetch, decode, execute (R124 to R126): a fetch fault is taken in the state before the step (R128). -/
def runInstruction (s : State) : Result :=
  match s.fetch with
  | .error t => .next (s.raise t)
  | .ok fetched => exec (decodeWord fetched.ir) fetched

/-- One invocation after its inputs are sampled (R120 to R123). -/
def cycle (s : State) : Result :=
  match s.run with
  | .halted => .next s
  | .awaitingKey => if s.input.stopReq then .next s.stop else .next s.keyWait
  | .running => if s.input.stopReq then .next s.stop else runInstruction s

end Sys2Proof.Machine
end

