-- ==== Sys2Proof/Machine/Step.lean ====
section
/-! DEFINITION. The machine's one step, and the placing of an instruction where it fetches next. -/

namespace Sys2Proof.Machine

/-- "the sole externally driven operation" (R120). -/
def step (s : State) : Host.Outcome State Fault Refusal := cycle s.sample

/-- `s` with the instruction whose `nbits` bits are `w` where the next step fetches (log entry 25). -/
def State.withFetchWord (s : State) (nbits w : Nat) : State := s.plant (BitVec.ofNat 16 (w % 2 ^ nbits))

end Sys2Proof.Machine
end

