-- ==== Sys2Proof/Machine/Ports.lean ====
section
/-! DEFINITION. The boundary with the host: what it observes between steps (10_state.md R38), and the
three things it can do beside invoking `step`: list inputs, reset, and nothing else (R37, R76, R290). -/

namespace Sys2Proof.Machine

/-- The encoding of `RUN` (R34, D11). -/
def RunState.code : RunState → BitVec 2
  | .running => 0
  | .awaitingKey => 1
  | .halted => 2

/-- The encoding of `FAULT` (R250, D12). -/
def FaultCause.code : FaultCause → BitVec 3
  | .noFault => 0
  | .fetchOutOfRange => 1
  | .stackOverflow => 2
  | .stackUnderflow => 3
  | .dataAddress => 4
  | .fontWrite => 5
  | .keyIndex => 6
  | .externalStop => 7

/-- The outputs of R38 that hold between steps. -/
structure Outputs where
  status : BitVec 2
  fault : BitVec 3
  faultInfo : Word
  fb : Framebuffer
  stValue : Byte
  ir : Word
  pc : Word
  deriving DecidableEq, Repr

/-- The outputs, `st_value` at the host's own time (R38). -/
def State.outputs (s : State) (hostNow : Nat) : Outputs where
  status := s.run.code
  fault := s.fault.code
  faultInfo := s.faultInfo
  fb := s.fb
  stValue := s.st.read s.launch.q.val hostNow
  ir := s.ir
  pc := s.pc

/-- The `present` events between two states of a run (R38, R267). -/
def presentEvents (before after : State) : List Framebuffer :=
  after.presented.drop before.presented.length

/-- The environment lists the samples of further steps (R37, R131). -/
def State.offer (s : State) (samples : List Sample) : State :=
  { s with pending := s.pending ++ samples }

/-- `reset(ROM)`, from any state, in any run state: nothing survives (R290, D21). -/
def State.restart (_ : State) (launch : Launch) : State := State.resetWith launch

end Sys2Proof.Machine
end

