-- ==== Sys2Proof/Safety.lean ====
section
/-! DEFINITION. The terms in which claims are written: the parts of the state, what a frame is, the
invariant of the machine, and what counts as the end of a program. -/

namespace Sys2Proof.Machine

/-- The parts of the state, as the columns of 10_state.md R41 divide it, and the model's own. -/
inductive Part
  | launch
  | mem
  | v
  | i
  | pc
  | ir
  | stack
  | dt
  | st
  | fb
  | control
  | presented
  | inputs
  | draws
  deriving DecidableEq, Repr

/-- Two states agree on a part. Memory agrees when every byte reads the same. -/
def Part.Same : Part → State → State → Prop
  | .launch, s, t => t.launch = s.launch
  | .mem, s, t => ∀ a, t.byteAt a = s.byteAt a
  | .v, s, t => ∀ k, t.reg k = s.reg k
  | .i, s, t => t.i = s.i
  | .pc, s, t => t.pc = s.pc
  | .ir, s, t => t.ir = s.ir
  | .stack, s, t => t.stack = s.stack ∧ t.sp = s.sp
  | .dt, s, t => t.dt = s.dt
  | .st, s, t => t.st = s.st
  | .fb, s, t => t.fb = s.fb
  | .control, s, t => t.run = s.run ∧ t.fault = s.fault ∧ t.faultInfo = s.faultInfo
  | .presented, s, t => t.presented = s.presented
  | .inputs, s, t => t.now = s.now ∧ t.input = s.input ∧ t.pending = s.pending
  | .draws, s, t => t.draws = s.draws

/-- A frame: `t` agrees with `s` on every part that is not listed. -/
def UnchangedExcept (parts : List Part) (s t : State) : Prop := ∀ p, p ∉ parts → p.Same s t

/-- Every register keeps its value, but for those listed. -/
def RegsExcept (changed : List Reg) (s t : State) : Prop := ∀ k, k ∉ changed → t.reg k = s.reg k

/-- Every byte outside `a`, ..., `a + n - 1` reads as before. -/
def MemExcept (a n : Nat) (s t : State) : Prop := ∀ b, (b < a ∨ a + n ≤ b) → t.byteAt b = s.byteAt b

/-- A fault is taken (60_exceptions.md R257): `t` is `s` Halted with this cause and information, and
nothing else of it differs. -/
def Faulted (cause : FaultCause) (info : Word) (s t : State) : Prop :=
  t.run = .halted ∧ t.fault = cause ∧ t.faultInfo = info ∧ UnchangedExcept [.control] s t

/-- The bytes `a`, ..., `a + n - 1` may all be read (R65). -/
abbrev Readable (a n : Nat) : Prop := a + n ≤ 0x1000

/-- The bytes `a`, ..., `a + n - 1` may all be written (R66). -/
abbrev Writable (a n : Nat) : Prop := 0x50 ≤ a ∧ a + n ≤ 0x1000

/-- Memory is in canonical form. -/
abbrev State.MemWf (s : State) : Prop := Memory.wf (resetByte s.launch) s.mem = true

/-! ## One step -/

/-- The next step executes an instruction: Running, no stop request in its sample, and `PC` below
`FETCH_LIMIT` (R120, R122, R124). -/
structure State.Ready (s : State) : Prop where
  running : s.run = .running
  noStop : s.sample.input.stopReq = false
  inRange : s.pc.toNat < 4094

/-- The word at `PC`, big-endian (R67). -/
def State.nextWord (s : State) : Word := s.byteAt s.pc.toNat ++ s.byteAt (s.pc.toNat + 1)

/-- The state in which the instruction at `PC` executes: inputs sampled, `IR` and `PC` written (R124). -/
def State.fetched (s : State) : State := { s.sample with ir := s.nextWord, pc := s.pc + 2 }

/-! ## What each instruction may change (10_state.md R41) -/

/-- The parts of the state an instruction may change; `control` stands where it may fault. -/
def changedParts : Instr → List Part
  | .cls => [.fb, .presented]
  | .ret => [.pc, .stack, .control]
  | .jp _ => [.pc]
  | .call _ => [.pc, .stack, .control]
  | .seImm _ _ => [.pc]
  | .sneImm _ _ => [.pc]
  | .seReg _ _ => [.pc]
  | .ldImm _ _ => [.v]
  | .addImm _ _ => [.v]
  | .ldReg _ _ => [.v]
  | .or _ _ => [.v]
  | .and _ _ => [.v]
  | .xor _ _ => [.v]
  | .addReg _ _ => [.v]
  | .sub _ _ => [.v]
  | .shr _ _ => [.v]
  | .subn _ _ => [.v]
  | .shl _ _ => [.v]
  | .sneReg _ _ => [.pc]
  | .ldI _ => [.i]
  | .jpV0 _ => [.pc]
  | .rnd _ _ => [.v, .draws]
  | .drw _ _ _ => [.v, .fb, .presented, .control]
  | .skp _ => [.pc, .control]
  | .sknp _ => [.pc, .control]
  | .ldVxDt _ => [.v]
  | .ldVxK _ => [.control]
  | .ldDtVx _ => [.dt]
  | .ldStVx _ => [.st]
  | .addI _ => [.i]
  | .ldF _ => [.i]
  | .ldB _ => [.mem, .control]
  | .ldMemVx _ => [.mem, .control]
  | .ldVxMem _ => [.v, .control]
  | .unrecognised _ => []

/-- The general registers an instruction may change: its destination, `VF` where it is the side effect
(R22), `V0` .. `Vx` for `Fx65`. -/
def changedRegs : Instr → List Reg
  | .ldImm x _ | .addImm x _ | .ldReg x _ | .or x _ | .and x _ | .xor x _ | .rnd x _ | .ldVxDt x => [x]
  | .addReg x _ | .sub x _ | .shr x _ | .subn x _ | .shl x _ => [x, VF]
  | .drw _ _ _ => [VF]
  | .ldVxMem x => (List.finRange 16).filter (· ≤ x)
  | .cls | .ret | .jp _ | .call _ | .seImm _ _ | .sneImm _ _ | .seReg _ _ | .sneReg _ _ | .ldI _
  | .jpV0 _ | .skp _ | .sknp _ | .ldVxK _ | .ldDtVx _ | .ldStVx _ | .addI _ | .ldF _ | .ldB _
  | .ldMemVx _ | .unrecognised _ => []

/-- The instructions that read an input of R37 (the last column of R41). -/
def readsInputs : Instr → Bool
  | .rnd _ _ | .skp _ | .sknp _ | .ldVxDt _ | .ldDtVx _ | .ldStVx _ => true
  | .cls | .ret | .jp _ | .call _ | .seImm _ _ | .sneImm _ _ | .seReg _ _ | .ldImm _ _ | .addImm _ _
  | .ldReg _ _ | .or _ _ | .and _ _ | .xor _ _ | .addReg _ _ | .sub _ _ | .shr _ _ | .subn _ _
  | .shl _ _ | .sneReg _ _ | .ldI _ | .jpV0 _ | .drw _ _ _ | .ldVxK _ | .addI _ | .ldF _ | .ldB _
  | .ldMemVx _ | .ldVxMem _ | .unrecognised _ => false

/-! ## The call stack as a whole (R26 to R28) -/

/-- Push every address, the first one first. -/
def State.pushAll (s : State) : List Word → Except Trap State
  | [] => .ok s
  | a :: rest =>
    match s.push a with
    | .error t => .error t
    | .ok t => t.pushAll rest

/-- Pop `n` addresses, in the order they come. -/
def State.popAll (s : State) : Nat → Except Trap (List Word × State)
  | 0 => .ok ([], s)
  | n + 1 =>
    match s.pop with
    | .error t => .error t
    | .ok (a, t) =>
      match t.popAll n with
      | .error e => .error e
      | .ok (rest, u) => .ok (a :: rest, u)

/-! ## The invariant and the end of a program -/

/-- The invariant of the machine. -/
structure Inv (s : State) : Prop where
  /-- memory is in canonical form -/
  memWf : s.MemWf
  /-- "no step ever changes `MEM[0x000..0x04F]`" (R66) -/
  font : ∀ a (h : a < 0x50), s.byteAt a = s.launch.font[a]
  /-- a timer was armed at a time that has come (R29) -/
  dtArmed : s.dt.armedAt ≤ s.now
  stArmed : s.st.armedAt ≤ s.now
  /-- "no `PC` value ever reaches 65536" (R24: at most 0x10FE between steps) -/
  pcBound : s.pc.toNat ≤ 0x10FE
  /-- a valid stack entry is a fetch-advanced `PC`, at most 4095 (R24) -/
  stackBound : ∀ k : Fin 16, k.val < s.sp.val → (s.stack.get k).toNat ≤ 4095
  /-- Halted exactly when a cause is recorded (R34, R35) -/
  haltedIff : s.run = .halted ↔ s.fault ≠ .noFault
  /-- no information without a cause (R258) -/
  noInfo : s.fault = .noFault → s.faultInfo = 0
  /-- while waiting, `IR` holds the `Fx0A` word (R232) -/
  waiting : s.run = .awaitingKey → ∃ x, decodeWord s.ir = .ldVxK x

/-- The end of a program, for test vectors (R300, D22): Halted, or Running at a jump to itself. -/
def State.finished (s : State) : Bool :=
  match s.run with
  | .halted => true
  | .running => s.byteAt s.pc.toNat ++ s.byteAt (s.pc.toNat + 1) == 0x1000#16 ||| s.pc
  | .awaitingKey => false

end Sys2Proof.Machine
end

