-- ==== Sys2Proof/Certificates/Slice0/Obligations.lean ====
section
/-! DEFINITION. The statements for the provers. Each docstring names the rules of spec/ it formalises and,
where a clause rests on a decision of the spec (D<n> of 92_eei_decisions.md) or of the model (log entry n),
that decision. -/

open Sys2Proof Sys2Proof.Machine

/-! ## Encoding -/

/-- Decoding the two bytes of any well-formed instruction gives that instruction and leaves the bytes
after it (30_encoding.md sections 1 to 3; strict digits: the spec's D9). -/
def Obligations.DecodeReturnsTheEncodedInstruction : Prop :=
  ∀ (i : Instr) (rest : List Byte), i.wf = true → decode (encodeBytes i ++ rest) = .ok (i, rest)

/-- Decoding loses no bit of any of the 65536 words, and what it gives is well-formed: no word is
illegal (R96; strict digits: the spec's D9). -/
def Obligations.EncodeRestoresEveryDecodedWord : Prop :=
  ∀ w : Word, (decodeWord w).wf = true ∧ encode (decodeWord w) = w

/-- The decoder agrees with the mask and match table of R95 on every word: a row selects a word exactly
when the word decodes to that row's instruction; and a word is unrecognised exactly when no row selects
it, which is when the list of R96 has it (strict digits: the spec's D9). -/
def Obligations.DecodeSelectsTheRowOfTheTable : Prop :=
  ∀ w : Word,
    (∀ r ∈ opcodeTable, r.selects w = true ↔ (decodeWord w).mnemonic = r.mnemonic) ∧
    (decodeWord w = .unrecognised w ↔ ∀ r ∈ opcodeTable, r.selects w = false) ∧
    (decodeWord w = .unrecognised w ↔ isUnrecognised w = true)

/-- Words of the spec's own examples decode to the instructions they stand for, one at least of each of the
sixteen families of bits 15 to 12 (Examples of 41_flow.md to 45_keypad_timers.md; `5121` is unrecognised by
the spec's D9). -/
def Obligations.ExampleWordsDecode : Prop :=
  decodeWord 0x00E0 = .cls ∧ decodeWord 0x00EE = .ret ∧ decodeWord 0x1200 = .jp 0x200 ∧
  decodeWord 0x2300 = .call 0x300 ∧ decodeWord 0x3A05 = .seImm 10 0x05 ∧
  decodeWord 0x4A05 = .sneImm 10 0x05 ∧ decodeWord 0x5120 = .seReg 1 2 ∧
  decodeWord 0x5121 = .unrecognised 0x5121 ∧ decodeWord 0x6A2F = .ldImm 10 0x2F ∧
  decodeWord 0x7A01 = .addImm 10 0x01 ∧ decodeWord 0x8124 = .addReg 1 2 ∧ decodeWord 0x812E = .shl 1 2 ∧
  decodeWord 0x9120 = .sneReg 1 2 ∧ decodeWord 0xA2F0 = .ldI 0x2F0 ∧ decodeWord 0xB210 = .jpV0 0x210 ∧
  decodeWord 0xC10F = .rnd 1 0x0F ∧
  decodeWord 0xD011 = .drw 0 1 1 ∧ decodeWord 0xE19E = .skp 1 ∧ decodeWord 0xF30A = .ldVxK 3 ∧
  decodeWord 0xF255 = .ldMemVx 2

/-! ## The step -/

/-- A STEP RUNS THE DECODED INSTRUCTION: when the core is ready and the two bytes at `PC` decode to `i`,
the step is exec of `i` in the state that sampling and fetch leave: `IR` the word, `PC` advanced by 2
(R120, R124 to R126; the bound 4094: the spec's D1; stop request first: the spec's D15). -/
def Obligations.StepRunsTheDecodedInstruction : Prop :=
  ∀ (s : State) (i : Instr), s.Ready →
    decode [s.byteAt s.pc.toNat, s.byteAt (s.pc.toNat + 1)] = .ok (i, []) → step s = exec i s.fetched

/-- Every step answers a next state: no word traps, every fault of the hardware is a Halted state, the
model never stops (R96, R128, R257, R272; log entry 30). -/
def Obligations.EveryStepAnswersANextState : Prop := ∀ s : State, ∃ t, step s = .next t

/-- A step while Halted changes nothing of the core; only its inputs are sampled (R121, the spec's D16;
log entry 19). -/
def Obligations.HaltedStepIsInert : Prop :=
  ∀ s : State, s.run = .halted → ∃ t, step s = .next t ∧ UnchangedExcept [.inputs] s t

/-- Halted is absorbing over any number of steps, whatever inputs come (R121, R260: the spec's D16). -/
def Obligations.HaltedIsAbsorbing : Prop :=
  ∀ (k : Nat) (s : State), s.run = .halted →
    ∃ t, Host.Core.run Sys2Proof.core k s = .next t ∧ UnchangedExcept [.inputs] s t

/-- A stop request halts the core at a step boundary, Running or waiting, with code ExternalStop and
`PC`, and changes nothing else (R122, the spec's D15). -/
def Obligations.StopRequestHalts : Prop :=
  ∀ s : State, s.run ≠ .halted → s.sample.input.stopReq = true →
    ∃ t, step s = .next t ∧ Faulted .externalStop s.pc s.sample t

/-- The key-wait step (R123): no fetch happens; without an event nothing changes; the first event puts the key in the
register that `IR[11:8]` names and resumes; `PC`, `IR` and the timers are as they were. -/
def Obligations.KeyWaitStep : Prop :=
  ∀ s : State, s.run = .awaitingKey → s.sample.input.stopReq = false →
    (s.sample.input.keyEvent = none → step s = .next s.sample) ∧
    (∀ k, s.sample.input.keyEvent = some k → ∃ t, step s = .next t ∧
      (∀ r : Reg, r.val = s.ir.toNat / 256 % 16 → (t.reg r).toNat = k.val ∧ RegsExcept [r] s t) ∧
      t.run = .running ∧ t.fault = s.fault ∧ t.faultInfo = s.faultInfo ∧
      UnchangedExcept [.v, .control] s.sample t)

/-- A fetch at 4094 or above faults with `PC`; `IR`, `PC` and everything else stay (R67, R124, R251; the
literal 4094: the spec's D1; code and state left: the spec's D12, D18). -/
def Obligations.FetchPastTheLimitFaults : Prop :=
  ∀ s : State, s.run = .running → s.sample.input.stopReq = false → 4094 ≤ s.pc.toNat →
    ∃ t, step s = .next t ∧ Faulted .fetchOutOfRange s.pc s.sample t

/-- After any step that executes an instruction, `IR` holds the big-endian word fetched, whatever the
instruction did (R25, R67, R70, R124; the bound in `Ready`: the spec's D1). -/
def Obligations.IrHoldsTheFetchedWord : Prop :=
  ∀ s : State, s.Ready → ∃ t, step s = .next t ∧
    t.ir.toNat = (s.byteAt s.pc.toNat).toNat * 256 + (s.byteAt (s.pc.toNat + 1)).toNat

/-- A store into the next instruction is seen by the very next fetch (R75, R296). -/
def Obligations.StoreIsSeenByTheNextFetch : Prop :=
  ∀ (s : State) (x : Reg), s.MemWf → s.Ready → s.i = s.pc → 1 ≤ x.val → Writable s.base (x.val + 1) →
    ∃ t u, exec (.ldMemVx x) s = .next t ∧ step t = .next u ∧
      u.ir.toNat = (s.reg 0).toNat * 256 + (s.reg 1).toNat

/-! ## Reset -/

/-- After reset, for every launch, the core stands at the entry point, Running, its stack empty, with no
fault, the font at 0x000 and the image at 0x200 (R40, R63, R290, R291; codes zero: the spec's D12). -/
def Obligations.ResetStateOfTheSource : Prop :=
  ∀ l : Launch, let s := State.resetWith l
    s.pc = 0x200 ∧ s.sp = 0 ∧ s.run = .running ∧ s.fault = .noFault ∧ s.faultInfo = 0 ∧
    (∀ a (h : a < 80), s.byteAt a = l.font[a]) ∧
    (∀ k (h : k < l.rom.val.length), s.byteAt (0x200 + k) = l.rom.val[k])

/-- The spec's DECISION D5 (log entry 3), no statement of the source: everything else is zero after
reset, for every launch: registers, `I`, `IR`, stack entries, timers, pixels, and memory outside the
font and the image. -/
def Obligations.ResetZeroesTheRest : Prop :=
  ∀ l : Launch, let s := State.resetWith l
    (∀ k, s.reg k = 0) ∧ s.i = 0 ∧ s.ir = 0 ∧ (∀ k : Fin 16, s.stack.get k = 0) ∧
    (∀ now, s.dt.read l.q.val now = 0 ∧ s.st.read l.q.val now = 0) ∧ s.dt.armedAt = 0 ∧ s.st.armedAt = 0 ∧
    (∀ r c, pixel s.fb r c = false) ∧
    (∀ a, 80 ≤ a → (a < 0x200 ∨ 0x200 + l.rom.val.length ≤ a) → s.byteAt a = 0)

/-! ## Control flow -/

/-- `00EE`: with an entry on the stack it returns there and the entry keeps its bits; on an empty stack it
faults with nothing else changed (R28, R140, R253; `SP` form: the spec's D10; codes and state left by the
fault: the spec's D12, D18). -/
def Obligations.ReturnPopsOrFaults : Prop :=
  ∀ s : State,
    (∀ top : Fin 16, s.sp.val = top.val + 1 → ∃ t, exec .ret s = .next t ∧
      t.pc = s.stack.get top ∧ t.sp.val = top.val ∧ t.stack = s.stack ∧ UnchangedExcept [.pc, .stack] s t) ∧
    (s.sp.val = 0 → ∃ t, exec .ret s = .next t ∧ Faulted .stackUnderflow 0 s t)

/-- `1nnn` (R141): its encoding and its effect. -/
def Obligations.JumpGoesToTheImmediate : Prop :=
  ∀ (s : State) (nnn : Addr12), decodeWord (0x1#4 ++ nnn) = .jp nnn ∧ ∃ t, exec (.jp nnn) s = .next t ∧
    t.pc.toNat = nnn.toNat ∧ UnchangedExcept [.pc] s t

/-- `2nnn`: with room on the stack it pushes the fetch-advanced `PC` and jumps; the seventeenth nested
call faults with nothing else changed (R27, R142, R252; `SP` form: the spec's D10; codes and state left by
the fault: the spec's D12, D18). -/
def Obligations.CallPushesOrFaults : Prop :=
  ∀ (s : State) (nnn : Addr12),
    (∀ free : Fin 16, s.sp.val = free.val → ∃ t, exec (.call nnn) s = .next t ∧
      t.pc.toNat = nnn.toNat ∧ t.sp.val = s.sp.val + 1 ∧ t.stack.get free = s.pc ∧
      (∀ k : Fin 16, k ≠ free → t.stack.get k = s.stack.get k) ∧ UnchangedExcept [.pc, .stack] s t) ∧
    (s.sp.val = 16 → ∃ t, exec (.call nnn) s = .next t ∧ Faulted .stackOverflow s.pc s t)

/-- A return undoes a call: `PC` is the address after the call, the stack is as deep as before, every
entry that was valid is unchanged, and so is the rest of the machine (R142, R140). -/
def Obligations.ReturnUndoesCall : Prop :=
  ∀ (s : State) (nnn : Addr12), s.sp.val < 16 →
    ∃ t u, exec (.call nnn) s = .next t ∧ exec .ret t = .next u ∧ u.pc = s.pc ∧ u.sp = s.sp ∧
      (∀ k : Fin 16, k.val < s.sp.val → u.stack.get k = s.stack.get k) ∧ UnchangedExcept [.stack] s u

/-- The stack is last in, first out: at most sixteen addresses pushed on an empty stack come back in
reverse order, and one more push faults exactly when there were sixteen (R26 to R28; the property S8). -/
def Obligations.StackReversesWhatIsPushed : Prop :=
  ∀ (s : State) (addresses : List Word), s.sp.val = 0 → addresses.length ≤ 16 →
    ∃ t, s.pushAll addresses = .ok t ∧
      (∃ u, t.popAll addresses.length = .ok (addresses.reverse, u) ∧ u.sp.val = 0) ∧
      (∀ a, t.push a = .error ⟨.stackOverflow, a⟩ ↔ addresses.length = 16)

/-- `Bnnn` (R147): its encoding and its effect; the base is always `V0`, the sum is not reduced. -/
def Obligations.JumpWithOffset : Prop :=
  ∀ (s : State) (nnn : Addr12), decodeWord (0xB#4 ++ nnn) = .jpV0 nnn ∧ ∃ t, exec (.jpV0 nnn) s = .next t ∧
    t.pc.toNat = (s.reg 0).toNat + nnn.toNat ∧ UnchangedExcept [.pc] s t

/-- `3xnn` and `4xnn` (R143, R144): their encodings and their effects; a skip moves `PC` by a further 2,
modulo 65536. -/
def Obligations.SkipsOnAnImmediate : Prop :=
  ∀ (s : State) (x : Reg) (nn : Byte),
    decodeWord (0x3#4 ++ regField x ++ nn) = .seImm x nn ∧
    decodeWord (0x4#4 ++ regField x ++ nn) = .sneImm x nn ∧
    (∃ t, exec (.seImm x nn) s = .next t ∧ UnchangedExcept [.pc] s t ∧
      t.pc.toNat = if s.reg x = nn then (s.pc.toNat + 2) % 65536 else s.pc.toNat) ∧
    (∃ t, exec (.sneImm x nn) s = .next t ∧ UnchangedExcept [.pc] s t ∧
      t.pc.toNat = if s.reg x ≠ nn then (s.pc.toNat + 2) % 65536 else s.pc.toNat)

/-- `5xy0` and `9xy0` (R145, R146, R149): with `x = y` the one always skips and the other never does. -/
def Obligations.SkipsOnTwoRegisters : Prop :=
  ∀ (s : State) (x y : Reg),
    (∃ t, exec (.seReg x y) s = .next t ∧ UnchangedExcept [.pc] s t ∧
      t.pc.toNat = if s.reg x = s.reg y then (s.pc.toNat + 2) % 65536 else s.pc.toNat) ∧
    (∃ t, exec (.sneReg x y) s = .next t ∧ UnchangedExcept [.pc] s t ∧
      t.pc.toNat = if s.reg x ≠ s.reg y then (s.pc.toNat + 2) % 65536 else s.pc.toNat)

/-- An unrecognised word executes as a no-op, and the step that meets one loads `IR`, advances `PC` by 2
and changes nothing else: no event, no fault (R148). -/
def Obligations.UnrecognisedWordIsANoOp : Prop :=
  (∀ (s : State) (w : Word), ∃ t, exec (.unrecognised w) s = .next t ∧ UnchangedExcept [] s t) ∧
  (∀ s : State, s.Ready → isUnrecognised s.nextWord = true →
    ∃ t, step s = .next t ∧ t.ir = s.nextWord ∧ t.pc.toNat = s.pc.toNat + 2 ∧
      UnchangedExcept [.ir, .pc] s.sample t)

/-! ## Registers and arithmetic -/

/-- `6xnn` and `8xy0` (R160, R162): their encodings; the register takes the value, no flag is written. -/
def Obligations.LoadAndMove : Prop :=
  ∀ (s : State) (x y : Reg) (nn : Byte),
    decodeWord (0x6#4 ++ regField x ++ nn) = .ldImm x nn ∧
    decodeWord (0x8#4 ++ regField x ++ regField y ++ 0x0#4) = .ldReg x y ∧
    (∃ t, exec (.ldImm x nn) s = .next t ∧ t.reg x = nn ∧ RegsExcept [x] s t ∧ UnchangedExcept [.v] s t) ∧
    (∃ t, exec (.ldReg x y) s = .next t ∧ t.reg x = s.reg y ∧ RegsExcept [x] s t ∧ UnchangedExcept [.v] s t)

/-- `7xnn` (R161): its encoding; the sum modulo 256; `VF` keeps its value unless it is the destination. -/
def Obligations.AddImmediateWritesNoFlag : Prop :=
  ∀ (s : State) (x : Reg) (nn : Byte), decodeWord (0x7#4 ++ regField x ++ nn) = .addImm x nn ∧
    ∃ t, exec (.addImm x nn) s = .next t ∧ (t.reg x).toNat = ((s.reg x).toNat + nn.toNat) % 256 ∧
      RegsExcept [x] s t ∧ UnchangedExcept [.v] s t

/-- `8xy1`, `8xy2`, `8xy3` (R163 to R165): their encodings; bit by bit, no flag. -/
def Obligations.LogicIsBitwise : Prop :=
  ∀ (s : State) (x y : Reg),
    decodeWord (0x8#4 ++ regField x ++ regField y ++ 0x1#4) = .or x y ∧
    decodeWord (0x8#4 ++ regField x ++ regField y ++ 0x2#4) = .and x y ∧
    decodeWord (0x8#4 ++ regField x ++ regField y ++ 0x3#4) = .xor x y ∧
    (∃ t, exec (.or x y) s = .next t ∧ RegsExcept [x] s t ∧ UnchangedExcept [.v] s t ∧
      ∀ b, (t.reg x).getLsbD b = ((s.reg x).getLsbD b || (s.reg y).getLsbD b)) ∧
    (∃ t, exec (.and x y) s = .next t ∧ RegsExcept [x] s t ∧ UnchangedExcept [.v] s t ∧
      ∀ b, (t.reg x).getLsbD b = ((s.reg x).getLsbD b && (s.reg y).getLsbD b)) ∧
    (∃ t, exec (.xor x y) s = .next t ∧ RegsExcept [x] s t ∧ UnchangedExcept [.v] s t ∧
      ∀ b, (t.reg x).getLsbD b = ((s.reg x).getLsbD b != (s.reg y).getLsbD b))

/-- `8xy4` (42_alu.md section 4 and the rows of section 7): the sum modulo 256, `VF` the carry; the
operands are the values before the instruction (the spec's D17), and with `x = F` the sum remains in
`VF` (the spec's D23). -/
def Obligations.AddSetsCarry : Prop :=
  ∀ (s : State) (x y : Reg), ∃ t, exec (.addReg x y) s = .next t ∧
    (t.reg x).toNat = ((s.reg x).toNat + (s.reg y).toNat) % 256 ∧
    (x ≠ VF → (t.reg VF).toNat = if (s.reg x).toNat + (s.reg y).toNat > 255 then 1 else 0) ∧
    RegsExcept [x, VF] s t ∧ UnchangedExcept [.v] s t

/-- `8xy5` and `8xy7` (42_alu.md section 4 and the rows of section 7): the difference modulo 256, `VF` 1
when there is no borrow; operands before the instruction (the spec's D17), and with `x = F` the
difference remains in `VF` (the spec's D23). -/
def Obligations.SubtractSetsNoBorrow : Prop :=
  ∀ (s : State) (x y : Reg),
    (∃ t, exec (.sub x y) s = .next t ∧
      (t.reg x).toNat = ((s.reg x).toNat + 256 - (s.reg y).toNat) % 256 ∧
      (x ≠ VF → (t.reg VF).toNat = if (s.reg x).toNat ≥ (s.reg y).toNat then 1 else 0) ∧
      RegsExcept [x, VF] s t ∧ UnchangedExcept [.v] s t) ∧
    (∃ t, exec (.subn x y) s = .next t ∧
      (t.reg x).toNat = ((s.reg y).toNat + 256 - (s.reg x).toNat) % 256 ∧
      (x ≠ VF → (t.reg VF).toNat = if (s.reg y).toNat ≥ (s.reg x).toNat then 1 else 0) ∧
      RegsExcept [x, VF] s t ∧ UnchangedExcept [.v] s t)

/-- `8xy6` and `8xyE` (42_alu.md section 5 and the rows of section 7): a shift of `Vx` by one, `y` ignored
(the spec's D2), `VF` the bit shifted out; with `x = F` the result remains in `VF` (the spec's D23). -/
def Obligations.ShiftsByOne : Prop :=
  ∀ (s : State) (x y : Reg),
    (∃ t, exec (.shr x y) s = .next t ∧ (t.reg x).toNat = (s.reg x).toNat / 2 ∧
      (x ≠ VF → (t.reg VF).toNat = (s.reg x).toNat % 2) ∧
      RegsExcept [x, VF] s t ∧ UnchangedExcept [.v] s t) ∧
    (∃ t, exec (.shl x y) s = .next t ∧ (t.reg x).toNat = (s.reg x).toNat * 2 % 256 ∧
      (x ≠ VF → (t.reg VF).toNat = (s.reg x).toNat / 128) ∧
      RegsExcept [x, VF] s t ∧ UnchangedExcept [.v] s t)

/-- `Cxnn` (R171, R266): the listed random byte masked; the result is a submask of `nn` for every byte
that may be drawn (log entry 4: where none is listed the byte is a free value). -/
def Obligations.RandomByteIsMasked : Prop :=
  ∀ (s : State) (x : Reg) (nn : Byte), ∃ t, exec (.rnd x nn) s = .next t ∧
    (∀ b, s.input.rand = some b → t.reg x = b &&& nn ∧ t.draws = s.draws) ∧
    (s.input.rand = none → t.draws = s.draws + 1) ∧
    (∀ k, (t.reg x).getLsbD k = true → nn.getLsbD k = true) ∧
    RegsExcept [x] s t ∧ UnchangedExcept [.v, .draws] s t

/-! ## Address register and memory -/

/-- `Annn`, `Fx1E`, `Fx29` (R190 to R192): their encodings; the three ways `I` is written, no flag. -/
def Obligations.AddressRegisterIsSet : Prop :=
  ∀ (s : State) (x : Reg) (nnn : Addr12),
    decodeWord (0xA#4 ++ nnn) = .ldI nnn ∧ decodeWord (0xF#4 ++ regField x ++ 0x1E#8) = .addI x ∧
    decodeWord (0xF#4 ++ regField x ++ 0x29#8) = .ldF x ∧
    (∃ t, exec (.ldI nnn) s = .next t ∧ t.i.toNat = nnn.toNat ∧ UnchangedExcept [.i] s t) ∧
    (∃ t, exec (.addI x) s = .next t ∧ t.i.toNat = (s.i.toNat + (s.reg x).toNat) % 65536 ∧
      UnchangedExcept [.i] s t) ∧
    (∃ t, exec (.ldF x) s = .next t ∧ t.i.toNat = 5 * ((s.reg x).toNat % 16) ∧ UnchangedExcept [.i] s t)

/-- `Fx33` where its three bytes may be written: hundreds, tens, ones; every other byte reads as before
and nothing else changes (43_index_memory.md section 3; the condition: the spec's D6, D7). -/
def Obligations.StoresDecimalDigits : Prop :=
  ∀ (s : State) (x : Reg), s.MemWf → Writable s.base 3 → ∃ t, exec (.ldB x) s = .next t ∧
    (t.byteAt s.base).toNat = (s.reg x).toNat / 100 ∧
    (t.byteAt (s.base + 1)).toNat = (s.reg x).toNat / 10 % 10 ∧
    (t.byteAt (s.base + 2)).toNat = (s.reg x).toNat % 10 ∧
    MemExcept s.base 3 s t ∧ UnchangedExcept [.mem] s t

/-- `Fx55` where its bytes may be written: `V0` to `Vx` inclusive at `I` upward, every other byte reads as
before, and nothing else changes, `I` included (43_index_memory.md section 3; the condition: the spec's
D6, D7). -/
def Obligations.StoresRegisters : Prop :=
  ∀ (s : State) (x : Reg), s.MemWf → Writable s.base (x.val + 1) → ∃ t, exec (.ldMemVx x) s = .next t ∧
    (∀ k : Reg, k ≤ x → t.byteAt (s.base + k.val) = s.reg k) ∧
    MemExcept s.base (x.val + 1) s t ∧ UnchangedExcept [.mem] s t

/-- `Fx33` and `Fx55` fault with nothing written when a byte may not be written: the lowest offending
address, in the font or above 0xFFF (43_index_memory.md section 3, R259; the faults are the spec's D6 and
D7, the codes D12, the state left D18). -/
def Obligations.StoreFaultsWriteNothing : Prop :=
  ∀ (s : State) (x : Reg) (i : Instr) (n : Nat), (i = .ldB x ∧ n = 3) ∨ (i = .ldMemVx x ∧ n = x.val + 1) →
    (s.base < 0x50 → ∃ t, exec i s = .next t ∧ Faulted .fontWrite s.i s t) ∧
    (0x50 ≤ s.base → 0x1000 < s.base + n → ∃ t, exec i s = .next t ∧
      Faulted .dataAddress (BitVec.ofNat 16 (max s.base 0x1000)) s t)

/-- `Fx65` where its bytes may be read: `V0` to `Vx` inclusive from `I` upward, the other registers and
everything else unchanged (43_index_memory.md section 4; the condition: the spec's D6). -/
def Obligations.LoadsRegisters : Prop :=
  ∀ (s : State) (x : Reg), Readable s.base (x.val + 1) → ∃ t, exec (.ldVxMem x) s = .next t ∧
    (∀ k : Reg, k ≤ x → t.reg k = s.byteAt (s.base + k.val)) ∧
    (∀ k : Reg, x < k → t.reg k = s.reg k) ∧ UnchangedExcept [.v] s t

/-- `Fx65`, and `Dxyn` with at least one row, fault with nothing written when a byte lies above 0xFFF: the
lowest such address (43_index_memory.md section 4, 44_display.md section 2; the fault is the spec's D6,
the code D12, the state left D18). -/
def Obligations.ReadFaultsChangeNothing : Prop :=
  ∀ (s : State) (x y : Reg) (i : Instr) (n : Nat),
    (i = .ldVxMem x ∧ n = x.val + 1) ∨ (i = .drw x y (BitVec.ofNat 4 n) ∧ 0 < n ∧ n < 16) →
    0x1000 < s.base + n → ∃ t, exec i s = .next t ∧
      Faulted .dataAddress (BitVec.ofNat 16 (max s.base 0x1000)) s t

/-- Storing `V0` to `Vx` and loading them again from the same `I` restores them, whatever the registers
held in between (R194, R195, the property S7). -/
def Obligations.StoreThenLoadRestores : Prop :=
  ∀ (s : State) (x : Reg) (between : Vector Byte 16), s.MemWf → Writable s.base (x.val + 1) →
    ∃ t u, exec (.ldMemVx x) s = .next t ∧ exec (.ldVxMem x) { t with v := between } = .next u ∧
      (∀ k : Reg, k ≤ x → u.reg k = s.reg k) ∧ (∀ k : Reg, x < k → u.reg k = between.get k)

/-! ## Display -/

/-- `00E0` (R210): its encoding; all pixels off, one present event with that picture, no flag. -/
def Obligations.ClearScreen : Prop :=
  ∀ s : State, decodeWord 0x00E0 = .cls ∧ ∃ t, exec .cls s = .next t ∧ (∀ r c, pixel t.fb r c = false) ∧
    t.presented = s.presented ++ [t.fb] ∧ UnchangedExcept [.fb, .presented] s t

/-- `Dxyn` where its rows may be read (44_display.md section 2): each visited pixel is its old value XOR
the sprite bit, wrapping on its own; every other pixel is kept; `VF` is 1 when a set bit fell on a pixel
that was on, else 0; one present event with the whole picture. The origin is the old `(Vx, Vy)` (the
spec's D17); the condition is the spec's D6. With `n = 0` no address is checked, `VF` is 0 and the present
event is emitted: that case is the spec's DECISION D19 (log entry 22). -/
def Obligations.DrawXorsTheSprite : Prop :=
  ∀ (s : State) (x y : Reg) (n : Nibble), n = 0 ∨ Readable s.base n.toNat →
    let row := fun r : Nat => Fin.ofNat 32 ((s.reg y).toNat + r)
    let col := fun b : Nat => Fin.ofNat 64 ((s.reg x).toNat + b)
    let bit := fun r b : Nat => (s.byteAt (s.base + r)).getLsbD (7 - b)
    ∃ t, exec (.drw x y n) s = .next t ∧
      (∀ r b, r < n.toNat → b < 8 → pixel t.fb (row r) (col b) = (pixel s.fb (row r) (col b) != bit r b)) ∧
      (∀ r c, (∀ k b, k < n.toNat → b < 8 → ¬ (r = row k ∧ c = col b)) → pixel t.fb r c = pixel s.fb r c) ∧
      ((t.reg VF).toNat = 1 ∨ (t.reg VF).toNat = 0) ∧
      ((t.reg VF).toNat = 1 ↔
        ∃ r b, r < n.toNat ∧ b < 8 ∧ bit r b = true ∧ pixel s.fb (row r) (col b) = true) ∧
      RegsExcept [VF] s t ∧ t.presented = s.presented ++ [t.fb] ∧
      UnchangedExcept [.v, .fb, .presented] s t

/-- `Dxy0` (R214, the spec's D19): whatever `I` holds it does not fault; `VF` is 0, no pixel changes, one
present event. -/
def Obligations.ZeroHeightSpriteDrawsNothing : Prop :=
  ∀ (s : State) (x y : Reg), ∃ t, exec (.drw x y 0) s = .next t ∧ t.reg VF = 0 ∧ RegsExcept [VF] s t ∧
    t.presented = s.presented ++ [s.fb] ∧ UnchangedExcept [.v, .presented] s t

/-- Drawing the same sprite twice at the same origin restores the picture, and the second draw collides
exactly when a set sprite bit lands on a pixel that is on after the first (R213, C11, the property S4).
Neither coordinate is `VF`, which the first draw overwrites. The condition is the spec's D6, the latched
origin D17; the case `n = 0`, with no address check, is the spec's DECISION D19 (log entry 22). -/
def Obligations.DrawTwiceRestoresThePicture : Prop :=
  ∀ (s : State) (x y : Reg) (n : Nibble), x ≠ VF → y ≠ VF → (n = 0 ∨ Readable s.base n.toNat) →
    ∃ t u, exec (.drw x y n) s = .next t ∧ exec (.drw x y n) t = .next u ∧ u.fb = s.fb ∧
      ((u.reg VF).toNat = 1 ↔ ∃ r b, r < n.toNat ∧ b < 8 ∧ (s.byteAt (s.base + r)).getLsbD (7 - b) = true ∧
        pixel t.fb (Fin.ofNat 32 ((s.reg y).toNat + r)) (Fin.ofNat 64 ((s.reg x).toNat + b)) = true)

/-! ## Keypad and timers -/

/-- `Ex9E` and `ExA1` with a key number up to 15: the level of that key alone decides (45_keypad_timers.md
section 2). -/
def Obligations.KeySkips : Prop :=
  ∀ (s : State) (x : Reg) (k : Key), (s.reg x).toNat = k.val →
    (∃ t, exec (.skp x) s = .next t ∧ UnchangedExcept [.pc] s t ∧
      t.pc.toNat = if s.input.keys.getLsbD k.val = true then (s.pc.toNat + 2) % 65536 else s.pc.toNat) ∧
    (∃ t, exec (.sknp x) s = .next t ∧ UnchangedExcept [.pc] s t ∧
      t.pc.toNat = if s.input.keys.getLsbD k.val = false then (s.pc.toNat + 2) % 65536 else s.pc.toNat)

/-- `Ex9E` and `ExA1` with a key number above 15 fault with that number (R236; the fault is the spec's D8,
the code D12, the state left D18). -/
def Obligations.KeyIndexAboveFifteenFaults : Prop :=
  ∀ (s : State) (x : Reg) (i : Instr), i = .skp x ∨ i = .sknp x → 15 < (s.reg x).toNat →
    ∃ t, exec i s = .next t ∧ Faulted .keyIndex (BitVec.ofNat 16 (s.reg x).toNat) s t

/-- `Fx0A`: executing it only starts the wait, whatever event is present (R232, the spec's D20). -/
def Obligations.WaitForKeyStarts : Prop :=
  ∀ (s : State) (x : Reg), ∃ t, exec (.ldVxK x) s = .next t ∧ t.run = .awaitingKey ∧
    t.fault = s.fault ∧ t.faultInfo = s.faultInfo ∧ UnchangedExcept [.control] s t

/-- A whole wait (R123, R232): a step on `Fx0A` waits; steps without an event change nothing of the core;
the step with event `k` puts `k` in `Vx` and resumes with `PC` after the `Fx0A` (first poll in the step
after: the spec's D20). -/
def Obligations.WaitDeliversTheKey : Prop :=
  ∀ (s : State) (x : Reg) (k : Key) (idle event : Sample) (more : List Sample),
    s.Ready → decodeWord s.nextWord = .ldVxK x →
    idle.stopReq = false → idle.keyEvent = none → event.stopReq = false → event.keyEvent = some k →
    ∃ t u w, step s = .next t ∧ t.run = .awaitingKey ∧
      step { t with pending := idle :: event :: more } = .next u ∧ UnchangedExcept [.inputs] t u ∧
      step u = .next w ∧ w.run = .running ∧ (w.reg x).toNat = k.val ∧ w.pc.toNat = s.pc.toNat + 2 ∧
      RegsExcept [x] s w ∧ UnchangedExcept [.v, .ir, .pc, .inputs] s w

/-- `Fx07` (R30, R233): the value last armed less the whole ticks since, not below 0; the timer is not
changed (floor of a partial tick: the spec's D4). -/
def Obligations.ReadsTheDelayTimer : Prop :=
  ∀ (s : State) (x : Reg), ∃ t, exec (.ldVxDt x) s = .next t ∧
    (t.reg x).toNat = s.dt.value.toNat - (s.now - s.dt.armedAt) / s.launch.q.val ∧
    RegsExcept [x] s t ∧ UnchangedExcept [.v] s t

/-- `Fx15` and `Fx18` (R234, R235): their encodings; each arms its own timer with `Vx` and the current time,
and leaves the other alone. -/
def Obligations.ArmsOneTimer : Prop :=
  ∀ (s : State) (x : Reg),
    decodeWord (0xF#4 ++ regField x ++ 0x15#8) = .ldDtVx x ∧
    decodeWord (0xF#4 ++ regField x ++ 0x18#8) = .ldStVx x ∧
    (∃ t, exec (.ldDtVx x) s = .next t ∧ t.dt.value = s.reg x ∧ t.dt.armedAt = s.now ∧
      UnchangedExcept [.dt] s t) ∧
    (∃ t, exec (.ldStVx x) s = .next t ∧ t.st.value = s.reg x ∧ t.st.armedAt = s.now ∧
      UnchangedExcept [.st] s t)

/-- A timer never runs up, never reads more than it was armed with, reads that value until one full tick
has passed, and reads 0 for ever once its ticks have passed (R30; floor: the spec's D4). -/
def Obligations.TimerRunsDownAndStays : Prop :=
  ∀ (timer : Timer) (q now later : Nat), 0 < q → timer.armedAt ≤ now → now ≤ later →
    (timer.read q later).toNat ≤ (timer.read q now).toNat ∧
    (timer.read q now).toNat ≤ timer.value.toNat ∧
    (now < timer.armedAt + q → timer.read q now = timer.value) ∧
    (timer.armedAt + timer.value.toNat * q ≤ now → timer.read q now = 0)

/-- The pair of R29 is observably the down-counter with a private prescaler of R32, at every time and for
every `Q >= 1` (floor: the spec's D4). -/
def Obligations.TimerRefinesTheDownCounter : Prop :=
  ∀ (b : Byte) (armedAt q k : Nat), 0 < q →
    (Timer.read ⟨b, armedAt⟩ q (armedAt + k)).toNat = ((DownCounter.arm b).after q k).cnt ∧
    ((DownCounter.arm b).after q k).pre < q

/-! ## The whole machine -/

/-- The access matrix of R41, its writes: whatever an instruction does, completing or faulting, it changes
only the parts and the registers listed for it. -/
def Obligations.EveryInstructionKeepsToItsColumns : Prop :=
  ∀ (i : Instr) (s : State), ∃ t, exec i s = .next t ∧
    UnchangedExcept (changedParts i) s t ∧ RegsExcept (changedRegs i) s t

/-- The access matrix of R41, its last column: an instruction that is not listed there does the same
whatever the inputs of the step are. -/
def Obligations.OnlyListedInstructionsReadInputs : Prop :=
  ∀ (i : Instr) (s t : State) (input : Sample) (now : Nat), readsInputs i = false →
    exec i s = .next t →
    exec i { s with input := input, now := now } = .next { t with input := input, now := now }

/-- Faults are precise (R128, R257: the spec's D18): an instruction that halts the core has changed
nothing but the run state, the cause and the information. -/
def Obligations.FaultsArePrecise : Prop :=
  ∀ (i : Instr) (s t : State), s.run ≠ .halted → exec i s = .next t → t.run = .halted →
    t.fault ∈ [.stackOverflow, .stackUnderflow, .dataAddress, .fontWrite, .keyIndex] ∧
    UnchangedExcept [.control] s t

/-- "No other opcode suspends" (R129): of all instructions only `Fx0A` enters AwaitingKey. -/
def Obligations.OnlyWaitForKeySuspends : Prop :=
  ∀ (i : Instr) (s t : State), s.run = .running → exec i s = .next t →
    (t.run = .awaitingKey ↔ ∃ x, i = .ldVxK x)

/-- No step changes a byte of the font (R66: enforced by the spec's D7), nor the run's parameters (R39). -/
def Obligations.NoStepChangesTheFont : Prop :=
  ∀ s : State, s.MemWf → ∃ t, step s = .next t ∧ t.launch = s.launch ∧
    ∀ a, a < 0x50 → t.byteAt a = s.byteAt a

/-- The codes of the outputs (R34, R250: the spec's D11, D12), and `st_value` as a timer read (R38). -/
def Obligations.OutputsShowTheState : Prop :=
  ∀ (s : State) (hostNow : Nat), let o := s.outputs hostNow
    o.status.toNat = (match s.run with | .running => 0 | .awaitingKey => 1 | .halted => 2) ∧
    o.fault.toNat = (match s.fault with
      | .noFault => 0 | .fetchOutOfRange => 1 | .stackOverflow => 2 | .stackUnderflow => 3
      | .dataAddress => 4 | .fontWrite => 5 | .keyIndex => 6 | .externalStop => 7) ∧
    o.faultInfo = s.faultInfo ∧ o.fb = s.fb ∧ o.ir = s.ir ∧ o.pc = s.pc ∧
    o.stValue.toNat = s.st.value.toNat - (hostNow - s.st.armedAt) / s.launch.q.val

/-- The invariant holds after reset, for every launch. -/
def Obligations.ResetEstablishesTheInvariant : Prop := ∀ l : Launch, Inv (State.resetWith l)

/-- THE INVARIANT IS KEPT BY EVERY STEP, from every state that meets it, whatever inputs come: canonical
memory, the font in place (R66), timers armed in the past (R29), `PC` at most 0x10FE and every valid stack
entry at most 4095 (R24), Halted exactly with a cause (R34, R35, R258), and `IR` the `Fx0A` word while
waiting (R232). -/
def Obligations.EveryStepKeepsTheInvariant : Prop :=
  ∀ s : State, Inv s → ∃ t, step s = .next t ∧ Inv t
end

