-- ==== Sys2Proof/Laws/Decode.lean ====
section
/-! SUPPORT. The fields of an assembled word, and a word put together from its fields. -/

namespace Sys2Proof

variable (f x y n : Nibble) (nn : Byte) (nnn : Addr12) (w : Word)

/-! ### Assembled words as numbers -/

theorem toNat_nnn : (f ++ nnn).toNat = f.toNat * 4096 + nnn.toNat := by
  erw [BitVec.toNat_append]
  rw [← Nat.shiftLeft_add_eq_or_of_lt nnn.isLt, Nat.shiftLeft_eq]

theorem toNat_xnn : (f ++ x ++ nn).toNat = (f.toNat * 16 + x.toNat) * 256 + nn.toNat := by
  erw [BitVec.toNat_append, BitVec.toNat_append]
  rw [← Nat.shiftLeft_add_eq_or_of_lt x.isLt, ← Nat.shiftLeft_add_eq_or_of_lt nn.isLt, Nat.shiftLeft_eq,
    Nat.shiftLeft_eq]

theorem toNat_xyn : (f ++ x ++ y ++ n).toNat = ((f.toNat * 16 + x.toNat) * 16 + y.toNat) * 16 + n.toNat := by
  erw [BitVec.toNat_append, BitVec.toNat_append, BitVec.toNat_append]
  rw [← Nat.shiftLeft_add_eq_or_of_lt x.isLt, ← Nat.shiftLeft_add_eq_or_of_lt y.isLt,
    ← Nat.shiftLeft_add_eq_or_of_lt n.isLt, Nat.shiftLeft_eq, Nat.shiftLeft_eq, Nat.shiftLeft_eq]

theorem toNat_nnOfParts : (y ++ n).toNat = y.toNat * 16 + n.toNat := by
  erw [BitVec.toNat_append]
  rw [← Nat.shiftLeft_add_eq_or_of_lt n.isLt, Nat.shiftLeft_eq]

/-! ### The fields as numbers (R91) -/

theorem famOf_toNat : (famOf w).toNat = w.toNat / 4096 := by
  rw [famOf, BitVec.extractLsb'_toNat, Nat.shiftRight_eq_div_pow]; omega
theorem xOf_toNat : (xOf w).toNat = w.toNat / 256 % 16 := by
  rw [xOf, BitVec.extractLsb'_toNat, Nat.shiftRight_eq_div_pow]
theorem yOf_toNat : (yOf w).toNat = w.toNat / 16 % 16 := by
  rw [yOf, BitVec.extractLsb'_toNat, Nat.shiftRight_eq_div_pow]
theorem nOf_toNat : (nOf w).toNat = w.toNat % 16 := by
  rw [nOf, BitVec.extractLsb'_toNat, Nat.shiftRight_zero]
theorem nnOf_toNat : (nnOf w).toNat = w.toNat % 256 := by
  rw [nnOf, BitVec.extractLsb'_toNat, Nat.shiftRight_zero]
theorem nnnOf_toNat : (nnnOf w).toNat = w.toNat % 4096 := by
  rw [nnnOf, BitVec.extractLsb'_toNat, Nat.shiftRight_zero]

/-! ### The fields of each format (R92) -/

@[simp] theorem famOf_nnn : famOf (f ++ nnn) = f := by
  apply BitVec.eq_of_toNat_eq; rw [famOf_toNat, toNat_nnn]; omega
@[simp] theorem nnnOf_nnn : nnnOf (f ++ nnn) = nnn := by
  apply BitVec.eq_of_toNat_eq; rw [nnnOf_toNat, toNat_nnn]; omega

@[simp] theorem famOf_xnn : famOf (f ++ x ++ nn) = f := by
  apply BitVec.eq_of_toNat_eq; rw [famOf_toNat, toNat_xnn]; omega
@[simp] theorem xOf_xnn : xOf (f ++ x ++ nn) = x := by
  apply BitVec.eq_of_toNat_eq; rw [xOf_toNat, toNat_xnn]; omega
@[simp] theorem nnOf_xnn : nnOf (f ++ x ++ nn) = nn := by
  apply BitVec.eq_of_toNat_eq; rw [nnOf_toNat, toNat_xnn]; omega

@[simp] theorem famOf_xyn : famOf (f ++ x ++ y ++ n) = f := by
  apply BitVec.eq_of_toNat_eq; rw [famOf_toNat, toNat_xyn]; omega
@[simp] theorem xOf_xyn : xOf (f ++ x ++ y ++ n) = x := by
  apply BitVec.eq_of_toNat_eq; rw [xOf_toNat, toNat_xyn]; omega
@[simp] theorem yOf_xyn : yOf (f ++ x ++ y ++ n) = y := by
  apply BitVec.eq_of_toNat_eq; rw [yOf_toNat, toNat_xyn]; omega
@[simp] theorem nOf_xyn : nOf (f ++ x ++ y ++ n) = n := by
  apply BitVec.eq_of_toNat_eq; rw [nOf_toNat, toNat_xyn]; omega

/-! ### A word is its fields -/

theorem word_eq_xyn : famOf w ++ xOf w ++ yOf w ++ nOf w = w := by
  apply BitVec.eq_of_toNat_eq
  rw [toNat_xyn, famOf_toNat, xOf_toNat, yOf_toNat, nOf_toNat]; omega

theorem word_eq_xnn : famOf w ++ xOf w ++ nnOf w = w := by
  apply BitVec.eq_of_toNat_eq
  rw [toNat_xnn, famOf_toNat, xOf_toNat, nnOf_toNat]; omega

theorem word_eq_nnn : famOf w ++ nnnOf w = w := by
  apply BitVec.eq_of_toNat_eq
  rw [toNat_nnn, famOf_toNat, nnnOf_toNat]; omega

/-- The two bytes of a word, high byte first, are the word (R70). -/
theorem word_of_bytes : (w.extractLsb' 8 8 ++ w.extractLsb' 0 8 : Word) = w := by
  apply BitVec.eq_of_toNat_eq
  erw [BitVec.toNat_append]
  rw [← Nat.shiftLeft_add_eq_or_of_lt (BitVec.isLt _), Nat.shiftLeft_eq, BitVec.extractLsb'_toNat,
    BitVec.extractLsb'_toNat, Nat.shiftRight_eq_div_pow]
  omega

/-! ### Words under the masks of R95 -/

theorem mask_nnn : (f ++ nnn : Word) &&& 0xF000 = f ++ 0x000#12 := by
  rw [show (0xF000 : Word) = 0xF#4 ++ 0x000#12 from rfl]
  refine (BitVec.and_append (x₁ := f)).trans ?_
  rw [BitVec.and_zero, show f &&& 0xF#4 = f from BitVec.and_allOnes]

theorem and_xnn (f' x' : Nibble) (nn' : Byte) : (f ++ x ++ nn : Word) &&& (f' ++ x' ++ nn' : Word) =
    (f &&& f') ++ (x &&& x') ++ (nn &&& nn') :=
  (BitVec.and_append (x₁ := f ++ x)).trans (congrArg (· ++ (nn &&& nn')) BitVec.and_append)

theorem and_xyn (f' x' y' n' : Nibble) : (f ++ x ++ y ++ n : Word) &&& (f' ++ x' ++ y' ++ n' : Word) =
    (f &&& f') ++ (x &&& x') ++ (y &&& y') ++ (n &&& n') :=
  (BitVec.and_append (x₁ := f ++ x ++ y)).trans (congrArg (· ++ (n &&& n'))
    ((BitVec.and_append (x₁ := f ++ x)).trans (congrArg (· ++ (y &&& y')) BitVec.and_append)))

theorem nibble_and_ones (a : Nibble) : a &&& 0xF#4 = a := BitVec.and_allOnes

theorem mask_xnn : (f ++ x ++ nn : Word) &&& 0xF000 = f ++ 0x0#4 ++ 0x00#8 := by
  rw [show (0xF000 : Word) = 0xF#4 ++ 0x0#4 ++ 0x00#8 from rfl, and_xnn, BitVec.and_zero, BitVec.and_zero,
    nibble_and_ones]

theorem mask_xss : (f ++ x ++ nn : Word) &&& 0xF0FF = f ++ 0x0#4 ++ nn := by
  rw [show (0xF0FF : Word) = 0xF#4 ++ 0x0#4 ++ 0xFF#8 from rfl, and_xnn, BitVec.and_zero, nibble_and_ones,
    show nn &&& 0xFF#8 = nn from BitVec.and_allOnes]

theorem mask_xy0 : (f ++ x ++ y ++ n : Word) &&& 0xF00F = f ++ 0x0#4 ++ 0x0#4 ++ n := by
  rw [show (0xF00F : Word) = 0xF#4 ++ 0x0#4 ++ 0x0#4 ++ 0xF#4 from rfl, and_xyn, BitVec.and_zero, BitVec.and_zero,
    nibble_and_ones, nibble_and_ones]

theorem mask_xyn : (f ++ x ++ y ++ n : Word) &&& 0xF000 = f ++ 0x0#4 ++ 0x0#4 ++ 0x0#4 := by
  rw [show (0xF000 : Word) = 0xF#4 ++ 0x0#4 ++ 0x0#4 ++ 0x0#4 from rfl, and_xyn, BitVec.and_zero, BitVec.and_zero,
    BitVec.and_zero, nibble_and_ones]

@[simp] theorem regField_toFin (r : Reg) : (regField r).toFin = r := rfl
@[simp] theorem regField_xReg : regField (xReg w) = xOf w := rfl
@[simp] theorem regField_yReg : regField (yReg w) = yOf w := rfl

/-- With the value taken, a literal digit is compared (R94, D9). -/
@[simp] theorem literalDigit_eq (digit want : Nibble) : literalDigit digit want = (digit == want) :=
  Bool.or_false _

end Sys2Proof
end

