-- ==== Sys2Proof/Laws/State.lean ====
section
/-! SUPPORT. One lemma for each field and each named update of State, true by rfl: no proof unfolds a
record update. -/

namespace Sys2Proof.Machine

variable (s : State)

/-! ### setReg -/

@[simp] theorem setReg_launch (k : Reg) (b : Byte) : (s.setReg k b).launch = s.launch := rfl
@[simp] theorem setReg_mem (k : Reg) (b : Byte) : (s.setReg k b).mem = s.mem := rfl
@[simp] theorem setReg_v (k : Reg) (b : Byte) : (s.setReg k b).v = s.v.set k b := rfl
@[simp] theorem setReg_i (k : Reg) (b : Byte) : (s.setReg k b).i = s.i := rfl
@[simp] theorem setReg_pc (k : Reg) (b : Byte) : (s.setReg k b).pc = s.pc := rfl
@[simp] theorem setReg_ir (k : Reg) (b : Byte) : (s.setReg k b).ir = s.ir := rfl
@[simp] theorem setReg_stack (k : Reg) (b : Byte) : (s.setReg k b).stack = s.stack := rfl
@[simp] theorem setReg_sp (k : Reg) (b : Byte) : (s.setReg k b).sp = s.sp := rfl
@[simp] theorem setReg_dt (k : Reg) (b : Byte) : (s.setReg k b).dt = s.dt := rfl
@[simp] theorem setReg_st (k : Reg) (b : Byte) : (s.setReg k b).st = s.st := rfl
@[simp] theorem setReg_fb (k : Reg) (b : Byte) : (s.setReg k b).fb = s.fb := rfl
@[simp] theorem setReg_run (k : Reg) (b : Byte) : (s.setReg k b).run = s.run := rfl
@[simp] theorem setReg_fault (k : Reg) (b : Byte) : (s.setReg k b).fault = s.fault := rfl
@[simp] theorem setReg_faultInfo (k : Reg) (b : Byte) : (s.setReg k b).faultInfo = s.faultInfo := rfl
@[simp] theorem setReg_presented (k : Reg) (b : Byte) : (s.setReg k b).presented = s.presented := rfl
@[simp] theorem setReg_now (k : Reg) (b : Byte) : (s.setReg k b).now = s.now := rfl
@[simp] theorem setReg_input (k : Reg) (b : Byte) : (s.setReg k b).input = s.input := rfl
@[simp] theorem setReg_pending (k : Reg) (b : Byte) : (s.setReg k b).pending = s.pending := rfl
@[simp] theorem setReg_draws (k : Reg) (b : Byte) : (s.setReg k b).draws = s.draws := rfl

/-! ### setI -/

@[simp] theorem setI_launch (a : Word) : (s.setI a).launch = s.launch := rfl
@[simp] theorem setI_mem (a : Word) : (s.setI a).mem = s.mem := rfl
@[simp] theorem setI_v (a : Word) : (s.setI a).v = s.v := rfl
@[simp] theorem setI_i (a : Word) : (s.setI a).i = a := rfl
@[simp] theorem setI_pc (a : Word) : (s.setI a).pc = s.pc := rfl
@[simp] theorem setI_ir (a : Word) : (s.setI a).ir = s.ir := rfl
@[simp] theorem setI_stack (a : Word) : (s.setI a).stack = s.stack := rfl
@[simp] theorem setI_sp (a : Word) : (s.setI a).sp = s.sp := rfl
@[simp] theorem setI_dt (a : Word) : (s.setI a).dt = s.dt := rfl
@[simp] theorem setI_st (a : Word) : (s.setI a).st = s.st := rfl
@[simp] theorem setI_fb (a : Word) : (s.setI a).fb = s.fb := rfl
@[simp] theorem setI_run (a : Word) : (s.setI a).run = s.run := rfl
@[simp] theorem setI_fault (a : Word) : (s.setI a).fault = s.fault := rfl
@[simp] theorem setI_faultInfo (a : Word) : (s.setI a).faultInfo = s.faultInfo := rfl
@[simp] theorem setI_presented (a : Word) : (s.setI a).presented = s.presented := rfl
@[simp] theorem setI_now (a : Word) : (s.setI a).now = s.now := rfl
@[simp] theorem setI_input (a : Word) : (s.setI a).input = s.input := rfl
@[simp] theorem setI_pending (a : Word) : (s.setI a).pending = s.pending := rfl
@[simp] theorem setI_draws (a : Word) : (s.setI a).draws = s.draws := rfl

/-! ### setPc -/

@[simp] theorem setPc_launch (a : Word) : (s.setPc a).launch = s.launch := rfl
@[simp] theorem setPc_mem (a : Word) : (s.setPc a).mem = s.mem := rfl
@[simp] theorem setPc_v (a : Word) : (s.setPc a).v = s.v := rfl
@[simp] theorem setPc_i (a : Word) : (s.setPc a).i = s.i := rfl
@[simp] theorem setPc_pc (a : Word) : (s.setPc a).pc = a := rfl
@[simp] theorem setPc_ir (a : Word) : (s.setPc a).ir = s.ir := rfl
@[simp] theorem setPc_stack (a : Word) : (s.setPc a).stack = s.stack := rfl
@[simp] theorem setPc_sp (a : Word) : (s.setPc a).sp = s.sp := rfl
@[simp] theorem setPc_dt (a : Word) : (s.setPc a).dt = s.dt := rfl
@[simp] theorem setPc_st (a : Word) : (s.setPc a).st = s.st := rfl
@[simp] theorem setPc_fb (a : Word) : (s.setPc a).fb = s.fb := rfl
@[simp] theorem setPc_run (a : Word) : (s.setPc a).run = s.run := rfl
@[simp] theorem setPc_fault (a : Word) : (s.setPc a).fault = s.fault := rfl
@[simp] theorem setPc_faultInfo (a : Word) : (s.setPc a).faultInfo = s.faultInfo := rfl
@[simp] theorem setPc_presented (a : Word) : (s.setPc a).presented = s.presented := rfl
@[simp] theorem setPc_now (a : Word) : (s.setPc a).now = s.now := rfl
@[simp] theorem setPc_input (a : Word) : (s.setPc a).input = s.input := rfl
@[simp] theorem setPc_pending (a : Word) : (s.setPc a).pending = s.pending := rfl
@[simp] theorem setPc_draws (a : Word) : (s.setPc a).draws = s.draws := rfl

/-! ### setRun -/

@[simp] theorem setRun_launch (r : RunState) : (s.setRun r).launch = s.launch := rfl
@[simp] theorem setRun_mem (r : RunState) : (s.setRun r).mem = s.mem := rfl
@[simp] theorem setRun_v (r : RunState) : (s.setRun r).v = s.v := rfl
@[simp] theorem setRun_i (r : RunState) : (s.setRun r).i = s.i := rfl
@[simp] theorem setRun_pc (r : RunState) : (s.setRun r).pc = s.pc := rfl
@[simp] theorem setRun_ir (r : RunState) : (s.setRun r).ir = s.ir := rfl
@[simp] theorem setRun_stack (r : RunState) : (s.setRun r).stack = s.stack := rfl
@[simp] theorem setRun_sp (r : RunState) : (s.setRun r).sp = s.sp := rfl
@[simp] theorem setRun_dt (r : RunState) : (s.setRun r).dt = s.dt := rfl
@[simp] theorem setRun_st (r : RunState) : (s.setRun r).st = s.st := rfl
@[simp] theorem setRun_fb (r : RunState) : (s.setRun r).fb = s.fb := rfl
@[simp] theorem setRun_run (r : RunState) : (s.setRun r).run = r := rfl
@[simp] theorem setRun_fault (r : RunState) : (s.setRun r).fault = s.fault := rfl
@[simp] theorem setRun_faultInfo (r : RunState) : (s.setRun r).faultInfo = s.faultInfo := rfl
@[simp] theorem setRun_presented (r : RunState) : (s.setRun r).presented = s.presented := rfl
@[simp] theorem setRun_now (r : RunState) : (s.setRun r).now = s.now := rfl
@[simp] theorem setRun_input (r : RunState) : (s.setRun r).input = s.input := rfl
@[simp] theorem setRun_pending (r : RunState) : (s.setRun r).pending = s.pending := rfl
@[simp] theorem setRun_draws (r : RunState) : (s.setRun r).draws = s.draws := rfl

/-! ### setFb -/

@[simp] theorem setFb_launch (f : Framebuffer) : (s.setFb f).launch = s.launch := rfl
@[simp] theorem setFb_mem (f : Framebuffer) : (s.setFb f).mem = s.mem := rfl
@[simp] theorem setFb_v (f : Framebuffer) : (s.setFb f).v = s.v := rfl
@[simp] theorem setFb_i (f : Framebuffer) : (s.setFb f).i = s.i := rfl
@[simp] theorem setFb_pc (f : Framebuffer) : (s.setFb f).pc = s.pc := rfl
@[simp] theorem setFb_ir (f : Framebuffer) : (s.setFb f).ir = s.ir := rfl
@[simp] theorem setFb_stack (f : Framebuffer) : (s.setFb f).stack = s.stack := rfl
@[simp] theorem setFb_sp (f : Framebuffer) : (s.setFb f).sp = s.sp := rfl
@[simp] theorem setFb_dt (f : Framebuffer) : (s.setFb f).dt = s.dt := rfl
@[simp] theorem setFb_st (f : Framebuffer) : (s.setFb f).st = s.st := rfl
@[simp] theorem setFb_fb (f : Framebuffer) : (s.setFb f).fb = f := rfl
@[simp] theorem setFb_run (f : Framebuffer) : (s.setFb f).run = s.run := rfl
@[simp] theorem setFb_fault (f : Framebuffer) : (s.setFb f).fault = s.fault := rfl
@[simp] theorem setFb_faultInfo (f : Framebuffer) : (s.setFb f).faultInfo = s.faultInfo := rfl
@[simp] theorem setFb_presented (f : Framebuffer) : (s.setFb f).presented = s.presented := rfl
@[simp] theorem setFb_now (f : Framebuffer) : (s.setFb f).now = s.now := rfl
@[simp] theorem setFb_input (f : Framebuffer) : (s.setFb f).input = s.input := rfl
@[simp] theorem setFb_pending (f : Framebuffer) : (s.setFb f).pending = s.pending := rfl
@[simp] theorem setFb_draws (f : Framebuffer) : (s.setFb f).draws = s.draws := rfl

/-! ### skip -/

@[simp] theorem skip_launch : s.skip.launch = s.launch := rfl
@[simp] theorem skip_mem : s.skip.mem = s.mem := rfl
@[simp] theorem skip_v : s.skip.v = s.v := rfl
@[simp] theorem skip_i : s.skip.i = s.i := rfl
@[simp] theorem skip_pc : s.skip.pc = s.pc + 2 := rfl
@[simp] theorem skip_ir : s.skip.ir = s.ir := rfl
@[simp] theorem skip_stack : s.skip.stack = s.stack := rfl
@[simp] theorem skip_sp : s.skip.sp = s.sp := rfl
@[simp] theorem skip_dt : s.skip.dt = s.dt := rfl
@[simp] theorem skip_st : s.skip.st = s.st := rfl
@[simp] theorem skip_fb : s.skip.fb = s.fb := rfl
@[simp] theorem skip_run : s.skip.run = s.run := rfl
@[simp] theorem skip_fault : s.skip.fault = s.fault := rfl
@[simp] theorem skip_faultInfo : s.skip.faultInfo = s.faultInfo := rfl
@[simp] theorem skip_presented : s.skip.presented = s.presented := rfl
@[simp] theorem skip_now : s.skip.now = s.now := rfl
@[simp] theorem skip_input : s.skip.input = s.input := rfl
@[simp] theorem skip_pending : s.skip.pending = s.pending := rfl
@[simp] theorem skip_draws : s.skip.draws = s.draws := rfl

/-! ### raise -/

@[simp] theorem raise_launch (t : Trap) : (s.raise t).launch = s.launch := rfl
@[simp] theorem raise_mem (t : Trap) : (s.raise t).mem = s.mem := rfl
@[simp] theorem raise_v (t : Trap) : (s.raise t).v = s.v := rfl
@[simp] theorem raise_i (t : Trap) : (s.raise t).i = s.i := rfl
@[simp] theorem raise_pc (t : Trap) : (s.raise t).pc = s.pc := rfl
@[simp] theorem raise_ir (t : Trap) : (s.raise t).ir = s.ir := rfl
@[simp] theorem raise_stack (t : Trap) : (s.raise t).stack = s.stack := rfl
@[simp] theorem raise_sp (t : Trap) : (s.raise t).sp = s.sp := rfl
@[simp] theorem raise_dt (t : Trap) : (s.raise t).dt = s.dt := rfl
@[simp] theorem raise_st (t : Trap) : (s.raise t).st = s.st := rfl
@[simp] theorem raise_fb (t : Trap) : (s.raise t).fb = s.fb := rfl
@[simp] theorem raise_run (t : Trap) : (s.raise t).run = .halted := rfl
@[simp] theorem raise_fault (t : Trap) : (s.raise t).fault = t.cause := rfl
@[simp] theorem raise_faultInfo (t : Trap) : (s.raise t).faultInfo = t.info := rfl
@[simp] theorem raise_presented (t : Trap) : (s.raise t).presented = s.presented := rfl
@[simp] theorem raise_now (t : Trap) : (s.raise t).now = s.now := rfl
@[simp] theorem raise_input (t : Trap) : (s.raise t).input = s.input := rfl
@[simp] theorem raise_pending (t : Trap) : (s.raise t).pending = s.pending := rfl
@[simp] theorem raise_draws (t : Trap) : (s.raise t).draws = s.draws := rfl

/-! ### stop -/

@[simp] theorem stop_launch : s.stop.launch = s.launch := rfl
@[simp] theorem stop_mem : s.stop.mem = s.mem := rfl
@[simp] theorem stop_v : s.stop.v = s.v := rfl
@[simp] theorem stop_i : s.stop.i = s.i := rfl
@[simp] theorem stop_pc : s.stop.pc = s.pc := rfl
@[simp] theorem stop_ir : s.stop.ir = s.ir := rfl
@[simp] theorem stop_stack : s.stop.stack = s.stack := rfl
@[simp] theorem stop_sp : s.stop.sp = s.sp := rfl
@[simp] theorem stop_dt : s.stop.dt = s.dt := rfl
@[simp] theorem stop_st : s.stop.st = s.st := rfl
@[simp] theorem stop_fb : s.stop.fb = s.fb := rfl
@[simp] theorem stop_run : s.stop.run = .halted := rfl
@[simp] theorem stop_fault : s.stop.fault = .externalStop := rfl
@[simp] theorem stop_faultInfo : s.stop.faultInfo = s.pc := rfl
@[simp] theorem stop_presented : s.stop.presented = s.presented := rfl
@[simp] theorem stop_now : s.stop.now = s.now := rfl
@[simp] theorem stop_input : s.stop.input = s.input := rfl
@[simp] theorem stop_pending : s.stop.pending = s.pending := rfl
@[simp] theorem stop_draws : s.stop.draws = s.draws := rfl

/-! ### poke -/

@[simp] theorem poke_launch (a : Nat) (b : Byte) : (s.poke a b).launch = s.launch := rfl
@[simp] theorem poke_mem (a : Nat) (b : Byte) : (s.poke a b).mem = Memory.write (resetByte s.launch) s.mem a b := rfl
@[simp] theorem poke_v (a : Nat) (b : Byte) : (s.poke a b).v = s.v := rfl
@[simp] theorem poke_i (a : Nat) (b : Byte) : (s.poke a b).i = s.i := rfl
@[simp] theorem poke_pc (a : Nat) (b : Byte) : (s.poke a b).pc = s.pc := rfl
@[simp] theorem poke_ir (a : Nat) (b : Byte) : (s.poke a b).ir = s.ir := rfl
@[simp] theorem poke_stack (a : Nat) (b : Byte) : (s.poke a b).stack = s.stack := rfl
@[simp] theorem poke_sp (a : Nat) (b : Byte) : (s.poke a b).sp = s.sp := rfl
@[simp] theorem poke_dt (a : Nat) (b : Byte) : (s.poke a b).dt = s.dt := rfl
@[simp] theorem poke_st (a : Nat) (b : Byte) : (s.poke a b).st = s.st := rfl
@[simp] theorem poke_fb (a : Nat) (b : Byte) : (s.poke a b).fb = s.fb := rfl
@[simp] theorem poke_run (a : Nat) (b : Byte) : (s.poke a b).run = s.run := rfl
@[simp] theorem poke_fault (a : Nat) (b : Byte) : (s.poke a b).fault = s.fault := rfl
@[simp] theorem poke_faultInfo (a : Nat) (b : Byte) : (s.poke a b).faultInfo = s.faultInfo := rfl
@[simp] theorem poke_presented (a : Nat) (b : Byte) : (s.poke a b).presented = s.presented := rfl
@[simp] theorem poke_now (a : Nat) (b : Byte) : (s.poke a b).now = s.now := rfl
@[simp] theorem poke_input (a : Nat) (b : Byte) : (s.poke a b).input = s.input := rfl
@[simp] theorem poke_pending (a : Nat) (b : Byte) : (s.poke a b).pending = s.pending := rfl
@[simp] theorem poke_draws (a : Nat) (b : Byte) : (s.poke a b).draws = s.draws := rfl

/-! ### armDt -/

@[simp] theorem armDt_launch (b : Byte) : (s.armDt b).launch = s.launch := rfl
@[simp] theorem armDt_mem (b : Byte) : (s.armDt b).mem = s.mem := rfl
@[simp] theorem armDt_v (b : Byte) : (s.armDt b).v = s.v := rfl
@[simp] theorem armDt_i (b : Byte) : (s.armDt b).i = s.i := rfl
@[simp] theorem armDt_pc (b : Byte) : (s.armDt b).pc = s.pc := rfl
@[simp] theorem armDt_ir (b : Byte) : (s.armDt b).ir = s.ir := rfl
@[simp] theorem armDt_stack (b : Byte) : (s.armDt b).stack = s.stack := rfl
@[simp] theorem armDt_sp (b : Byte) : (s.armDt b).sp = s.sp := rfl
@[simp] theorem armDt_dt (b : Byte) : (s.armDt b).dt = ⟨b, s.now⟩ := rfl
@[simp] theorem armDt_st (b : Byte) : (s.armDt b).st = s.st := rfl
@[simp] theorem armDt_fb (b : Byte) : (s.armDt b).fb = s.fb := rfl
@[simp] theorem armDt_run (b : Byte) : (s.armDt b).run = s.run := rfl
@[simp] theorem armDt_fault (b : Byte) : (s.armDt b).fault = s.fault := rfl
@[simp] theorem armDt_faultInfo (b : Byte) : (s.armDt b).faultInfo = s.faultInfo := rfl
@[simp] theorem armDt_presented (b : Byte) : (s.armDt b).presented = s.presented := rfl
@[simp] theorem armDt_now (b : Byte) : (s.armDt b).now = s.now := rfl
@[simp] theorem armDt_input (b : Byte) : (s.armDt b).input = s.input := rfl
@[simp] theorem armDt_pending (b : Byte) : (s.armDt b).pending = s.pending := rfl
@[simp] theorem armDt_draws (b : Byte) : (s.armDt b).draws = s.draws := rfl

/-! ### armSt -/

@[simp] theorem armSt_launch (b : Byte) : (s.armSt b).launch = s.launch := rfl
@[simp] theorem armSt_mem (b : Byte) : (s.armSt b).mem = s.mem := rfl
@[simp] theorem armSt_v (b : Byte) : (s.armSt b).v = s.v := rfl
@[simp] theorem armSt_i (b : Byte) : (s.armSt b).i = s.i := rfl
@[simp] theorem armSt_pc (b : Byte) : (s.armSt b).pc = s.pc := rfl
@[simp] theorem armSt_ir (b : Byte) : (s.armSt b).ir = s.ir := rfl
@[simp] theorem armSt_stack (b : Byte) : (s.armSt b).stack = s.stack := rfl
@[simp] theorem armSt_sp (b : Byte) : (s.armSt b).sp = s.sp := rfl
@[simp] theorem armSt_dt (b : Byte) : (s.armSt b).dt = s.dt := rfl
@[simp] theorem armSt_st (b : Byte) : (s.armSt b).st = ⟨b, s.now⟩ := rfl
@[simp] theorem armSt_fb (b : Byte) : (s.armSt b).fb = s.fb := rfl
@[simp] theorem armSt_run (b : Byte) : (s.armSt b).run = s.run := rfl
@[simp] theorem armSt_fault (b : Byte) : (s.armSt b).fault = s.fault := rfl
@[simp] theorem armSt_faultInfo (b : Byte) : (s.armSt b).faultInfo = s.faultInfo := rfl
@[simp] theorem armSt_presented (b : Byte) : (s.armSt b).presented = s.presented := rfl
@[simp] theorem armSt_now (b : Byte) : (s.armSt b).now = s.now := rfl
@[simp] theorem armSt_input (b : Byte) : (s.armSt b).input = s.input := rfl
@[simp] theorem armSt_pending (b : Byte) : (s.armSt b).pending = s.pending := rfl
@[simp] theorem armSt_draws (b : Byte) : (s.armSt b).draws = s.draws := rfl

/-! ### present -/

@[simp] theorem present_launch : s.present.launch = s.launch := rfl
@[simp] theorem present_mem : s.present.mem = s.mem := rfl
@[simp] theorem present_v : s.present.v = s.v := rfl
@[simp] theorem present_i : s.present.i = s.i := rfl
@[simp] theorem present_pc : s.present.pc = s.pc := rfl
@[simp] theorem present_ir : s.present.ir = s.ir := rfl
@[simp] theorem present_stack : s.present.stack = s.stack := rfl
@[simp] theorem present_sp : s.present.sp = s.sp := rfl
@[simp] theorem present_dt : s.present.dt = s.dt := rfl
@[simp] theorem present_st : s.present.st = s.st := rfl
@[simp] theorem present_fb : s.present.fb = s.fb := rfl
@[simp] theorem present_run : s.present.run = s.run := rfl
@[simp] theorem present_fault : s.present.fault = s.fault := rfl
@[simp] theorem present_faultInfo : s.present.faultInfo = s.faultInfo := rfl
@[simp] theorem present_presented : s.present.presented = s.presented ++ [s.fb] := rfl
@[simp] theorem present_now : s.present.now = s.now := rfl
@[simp] theorem present_input : s.present.input = s.input := rfl
@[simp] theorem present_pending : s.present.pending = s.pending := rfl
@[simp] theorem present_draws : s.present.draws = s.draws := rfl

/-! ### setFlagAndReg -/

@[simp] theorem setFlagAndReg_launch (flag : Bool) (x : Reg) (b : Byte) : (s.setFlagAndReg flag x b).launch = s.launch := rfl
@[simp] theorem setFlagAndReg_mem (flag : Bool) (x : Reg) (b : Byte) : (s.setFlagAndReg flag x b).mem = s.mem := rfl
@[simp] theorem setFlagAndReg_v (flag : Bool) (x : Reg) (b : Byte) : (s.setFlagAndReg flag x b).v = (s.v.set VF (flagByte flag)).set x b := rfl
@[simp] theorem setFlagAndReg_i (flag : Bool) (x : Reg) (b : Byte) : (s.setFlagAndReg flag x b).i = s.i := rfl
@[simp] theorem setFlagAndReg_pc (flag : Bool) (x : Reg) (b : Byte) : (s.setFlagAndReg flag x b).pc = s.pc := rfl
@[simp] theorem setFlagAndReg_ir (flag : Bool) (x : Reg) (b : Byte) : (s.setFlagAndReg flag x b).ir = s.ir := rfl
@[simp] theorem setFlagAndReg_stack (flag : Bool) (x : Reg) (b : Byte) : (s.setFlagAndReg flag x b).stack = s.stack := rfl
@[simp] theorem setFlagAndReg_sp (flag : Bool) (x : Reg) (b : Byte) : (s.setFlagAndReg flag x b).sp = s.sp := rfl
@[simp] theorem setFlagAndReg_dt (flag : Bool) (x : Reg) (b : Byte) : (s.setFlagAndReg flag x b).dt = s.dt := rfl
@[simp] theorem setFlagAndReg_st (flag : Bool) (x : Reg) (b : Byte) : (s.setFlagAndReg flag x b).st = s.st := rfl
@[simp] theorem setFlagAndReg_fb (flag : Bool) (x : Reg) (b : Byte) : (s.setFlagAndReg flag x b).fb = s.fb := rfl
@[simp] theorem setFlagAndReg_run (flag : Bool) (x : Reg) (b : Byte) : (s.setFlagAndReg flag x b).run = s.run := rfl
@[simp] theorem setFlagAndReg_fault (flag : Bool) (x : Reg) (b : Byte) : (s.setFlagAndReg flag x b).fault = s.fault := rfl
@[simp] theorem setFlagAndReg_faultInfo (flag : Bool) (x : Reg) (b : Byte) : (s.setFlagAndReg flag x b).faultInfo = s.faultInfo := rfl
@[simp] theorem setFlagAndReg_presented (flag : Bool) (x : Reg) (b : Byte) : (s.setFlagAndReg flag x b).presented = s.presented := rfl
@[simp] theorem setFlagAndReg_now (flag : Bool) (x : Reg) (b : Byte) : (s.setFlagAndReg flag x b).now = s.now := rfl
@[simp] theorem setFlagAndReg_input (flag : Bool) (x : Reg) (b : Byte) : (s.setFlagAndReg flag x b).input = s.input := rfl
@[simp] theorem setFlagAndReg_pending (flag : Bool) (x : Reg) (b : Byte) : (s.setFlagAndReg flag x b).pending = s.pending := rfl
@[simp] theorem setFlagAndReg_draws (flag : Bool) (x : Reg) (b : Byte) : (s.setFlagAndReg flag x b).draws = s.draws := rfl

end Sys2Proof.Machine
end

