-- ==== Sys2Proof/Laws/Memory.lean ====
section
/-! SUPPORT. The laws of memory: read after write, the canonical form, and the byte view of State. -/

namespace Sys2Proof.Machine

section list
variable (d : Nat → Byte) (m : Memory) (a b : Nat) (v : Byte)

@[simp] theorem Memory.read_nil : Memory.read d [] a = d a := rfl

theorem Memory.read_cons_cell (k : Nat) (c : Byte) (rest : Memory) :
    Memory.read d ((k, c) :: rest) a = if k = a then c else Memory.read d rest a := rfl

/-- `cons` is read like a listed cell, where the address is not listed behind it. -/
theorem Memory.read_cons (rest : Memory) (hrest : Memory.read d rest a = d a) :
    Memory.read d (Memory.cons d a v rest) b = if a = b then v else Memory.read d rest b := by
  unfold Memory.cons
  split
  · next h =>
    split
    · next hab => subst hab; rw [hrest, h]
    · rfl
  · rfl

/-- Addresses below every listed one read as unlisted. -/
theorem Memory.read_below (h : m.all (fun c => decide (a < c.1)) = true) : Memory.read d m a = d a := by
  induction m with
  | nil => rfl
  | cons c rest ih =>
    obtain ⟨k, w⟩ := c
    simp only [List.all_cons, Bool.and_eq_true, decide_eq_true_eq] at h
    rw [Memory.read_cons_cell, if_neg (by omega), ih h.2]

/-- The canonical form of a list with a first cell, in words. -/
theorem Memory.wf_cons (k : Nat) (c : Byte) (rest : Memory) :
    Memory.wf d ((k, c) :: rest) = true ↔
      k < 0x1000 ∧ c ≠ d k ∧ (∀ cell ∈ rest, k < cell.1) ∧ Memory.wf d rest = true := by
  simp [Memory.wf, and_assoc]

theorem Memory.read_head_gap (k : Nat) (rest : Memory)
    (h : ∀ cell ∈ rest, k < cell.1) (ha : a ≤ k) : Memory.read d rest a = d a :=
  Memory.read_below d rest a (by
    simp only [List.all_eq_true, decide_eq_true_eq]
    intro c hc
    exact Nat.lt_of_le_of_lt ha (h c hc))

/-- READ AFTER WRITE: the written address gives the value, every other address what it gave before. -/
theorem Memory.read_write (hwf : Memory.wf d m = true) :
    Memory.read d (Memory.write d m a v) b = if a = b then v else Memory.read d m b := by
  induction m with
  | nil => exact Memory.read_cons d a b v [] rfl
  | cons c rest ih =>
    obtain ⟨k, w⟩ := c
    obtain ⟨-, -, hlt, hrest⟩ := (Memory.wf_cons d k w rest).1 hwf
    unfold Memory.write
    split
    · next hak =>
      apply Memory.read_cons
      rw [Memory.read_cons_cell, if_neg (by omega)]
      exact Memory.read_head_gap d a k rest hlt (by omega)
    · split
      · next hak =>
        subst hak
        rw [Memory.read_cons d a b v rest (Memory.read_head_gap d a a rest hlt (by omega)),
          Memory.read_cons_cell]
        split <;> rfl
      · next hne =>
        rw [Memory.read_cons_cell, Memory.read_cons_cell, ih hrest]
        by_cases hkb : k = b
        · subst hkb; rw [if_pos rfl, if_pos rfl, if_neg (by omega)]
        · rw [if_neg hkb, if_neg hkb]

/-- A write lists no address that was not listed, but its own. -/
theorem Memory.write_all (P : Nat → Prop) (ha : P a) (h : ∀ c ∈ m, P c.1) :
    ∀ c ∈ Memory.write d m a v, P c.1 := by
  have key : ∀ rest : Memory, (∀ c ∈ rest, P c.1) → ∀ c ∈ Memory.cons d a v rest, P c.1 := by
    intro rest hr c hc
    unfold Memory.cons at hc
    split at hc
    · exact hr c hc
    · obtain rfl | hc := List.mem_cons.1 hc
      · exact ha
      · exact hr c hc
  induction m with
  | nil => exact key [] (by simp)
  | cons c rest ih =>
    obtain ⟨k, w⟩ := c
    have hrest : ∀ c ∈ rest, P c.1 := fun c hc => h c (List.mem_cons_of_mem _ hc)
    unfold Memory.write
    split
    · exact key _ h
    · split
      · exact key rest hrest
      · intro c hc
        obtain rfl | hc := List.mem_cons.1 hc
        · exact h _ List.mem_cons_self
        · exact ih hrest c hc

theorem Memory.cons_wf (rest : Memory) (hwf : Memory.wf d rest = true) (ha : a < 0x1000)
    (hlt : ∀ c ∈ rest, a < c.1) : Memory.wf d (Memory.cons d a v rest) = true := by
  unfold Memory.cons
  split
  · exact hwf
  · next hne => exact (Memory.wf_cons d a v rest).2 ⟨ha, hne, hlt, hwf⟩

/-- A write inside memory keeps the canonical form. -/
theorem Memory.write_wf (hwf : Memory.wf d m = true) (ha : a < 0x1000) :
    Memory.wf d (Memory.write d m a v) = true := by
  induction m with
  | nil => exact Memory.cons_wf d a v [] hwf ha (by simp)
  | cons c rest ih =>
    obtain ⟨k, w⟩ := c
    obtain ⟨hk, hw, hlt, hrest⟩ := (Memory.wf_cons d k w rest).1 hwf
    unfold Memory.write
    split
    · next hak =>
      refine Memory.cons_wf d a v _ hwf ha ?_
      intro c hc
      obtain rfl | hc := List.mem_cons.1 hc
      · exact hak
      · exact Nat.lt_trans hak (hlt c hc)
    · split
      · next hak => exact Memory.cons_wf d a v rest hrest ha (hak ▸ hlt)
      · next hnlt hne =>
        exact (Memory.wf_cons d k w _).2 ⟨hk, hw, Memory.write_all d rest a v (k < ·) (by omega) hlt, ih hrest⟩

end list

/-! ### The byte view of State -/

variable (s t : State)

/-- The byte view depends on the launch and the memory alone. -/
theorem byteAt_congr (hl : t.launch = s.launch) (hm : t.mem = s.mem) (a : Nat) : t.byteAt a = s.byteAt a := by
  unfold State.byteAt; rw [hl, hm]

theorem poke_byteAt (hwf : s.MemWf) (a b : Nat) (v : Byte) :
    (s.poke a v).byteAt b = if a = b then v else s.byteAt b :=
  Memory.read_write (resetByte s.launch) s.mem a b v hwf

theorem poke_memWf (hwf : s.MemWf) {a : Nat} (ha : a < 0x1000) (v : Byte) : (s.poke a v).MemWf :=
  Memory.write_wf (resetByte s.launch) s.mem a v hwf ha

theorem reset_memWf (l : Launch) : (State.resetWith l).MemWf := rfl

@[simp] theorem setReg_byteAt (k : Reg) (b : Byte) (a : Nat) : (s.setReg k b).byteAt a = s.byteAt a := rfl
@[simp] theorem setI_byteAt (w : Word) (a : Nat) : (s.setI w).byteAt a = s.byteAt a := rfl
@[simp] theorem setPc_byteAt (w : Word) (a : Nat) : (s.setPc w).byteAt a = s.byteAt a := rfl
@[simp] theorem setRun_byteAt (r : RunState) (a : Nat) : (s.setRun r).byteAt a = s.byteAt a := rfl
@[simp] theorem setFb_byteAt (f : Framebuffer) (a : Nat) : (s.setFb f).byteAt a = s.byteAt a := rfl
@[simp] theorem skip_byteAt (a : Nat) : s.skip.byteAt a = s.byteAt a := rfl
@[simp] theorem raise_byteAt (trap : Trap) (a : Nat) : (s.raise trap).byteAt a = s.byteAt a := rfl
@[simp] theorem armDt_byteAt (b : Byte) (a : Nat) : (s.armDt b).byteAt a = s.byteAt a := rfl
@[simp] theorem armSt_byteAt (b : Byte) (a : Nat) : (s.armSt b).byteAt a = s.byteAt a := rfl
@[simp] theorem present_byteAt (a : Nat) : s.present.byteAt a = s.byteAt a := rfl
@[simp] theorem setFlagAndReg_byteAt (f : Bool) (x : Reg) (b : Byte) (a : Nat) :
    (s.setFlagAndReg f x b).byteAt a = s.byteAt a := rfl

/-! ### The register view -/

@[simp] theorem setReg_reg (k j : Reg) (b : Byte) : (s.setReg k b).reg j = if j = k then b else s.reg j := by
  simp only [State.reg, State.setReg, Vector.get_eq_getElem, Vector.getElem_set, Fin.ext_iff]
  simp only [eq_comm]

theorem reg_congr (h : t.v = s.v) (k : Reg) : t.reg k = s.reg k := by unfold State.reg; rw [h]

@[simp] theorem setI_reg (w : Word) (k : Reg) : (s.setI w).reg k = s.reg k := rfl
@[simp] theorem setPc_reg (w : Word) (k : Reg) : (s.setPc w).reg k = s.reg k := rfl
@[simp] theorem setRun_reg (r : RunState) (k : Reg) : (s.setRun r).reg k = s.reg k := rfl
@[simp] theorem setFb_reg (f : Framebuffer) (k : Reg) : (s.setFb f).reg k = s.reg k := rfl
@[simp] theorem skip_reg (k : Reg) : s.skip.reg k = s.reg k := rfl
@[simp] theorem raise_reg (trap : Trap) (k : Reg) : (s.raise trap).reg k = s.reg k := rfl
@[simp] theorem poke_reg (a : Nat) (b : Byte) (k : Reg) : (s.poke a b).reg k = s.reg k := rfl
@[simp] theorem armDt_reg (b : Byte) (k : Reg) : (s.armDt b).reg k = s.reg k := rfl
@[simp] theorem armSt_reg (b : Byte) (k : Reg) : (s.armSt b).reg k = s.reg k := rfl
@[simp] theorem present_reg (k : Reg) : s.present.reg k = s.reg k := rfl

/-- Flag first, result second, as reads: the result wins in `VF` (R127, D23). -/
@[simp] theorem setFlagAndReg_reg (f : Bool) (x j : Reg) (b : Byte) :
    (s.setFlagAndReg f x b).reg j = if j = x then b else if j = VF then flagByte f else s.reg j := by
  simp [State.setFlagAndReg]

end Sys2Proof.Machine
end

