-- ==== Sys2Proof/Laws/Ops.lean ====
section
/-! SUPPORT. One lemma for each shared operation that says once everything it can do. -/

namespace Sys2Proof.Machine

variable (s t : State)

/-! ### The parameters at the values taken (00_scope.md R6) -/

@[simp] theorem taken_fetchLimit : (Config.taken.fetchLimit.val) = 4094 := rfl
@[simp] theorem taken_shiftSource : Config.taken.shiftSource = .vx := rfl
@[simp] theorem taken_dataOob : Config.taken.dataOob = .fault := rfl
@[simp] theorem taken_fontWrite : Config.taken.fontWrite = .fault := rfl
@[simp] theorem taken_keyRange : Config.taken.keyRange = .fault := rfl
@[simp] theorem taken_strictDecode : Config.taken.strictDecode = true := rfl
@[simp] theorem resetFill_eq (width site : Nat) : Config.resetFill width site = 0 := rfl

@[simp] theorem shiftOperand_eq (x y : Reg) : s.shiftOperand x y = s.reg x := rfl

@[simp] theorem dropsStore_eq (cell : Nat) : dropsStore cell = false := by
  unfold dropsStore
  rw [taken_fontWrite]
  exact Bool.and_false _

/-! ### Faults -/

@[simp] theorem settle_ok : s.settle (.ok t) = t := rfl
@[simp] theorem settle_error (trap : Trap) : s.settle (.error trap) = s.raise trap := rfl

theorem faulted_raise (trap : Trap) : Faulted trap.cause trap.info s (s.raise trap) := by
  refine ⟨rfl, rfl, rfl, ?_⟩
  intro p hp
  cases p <;> first | exact absurd (List.mem_singleton.2 rfl) hp | simp [Part.Same]

/-! ### Memory -/

theorem readTrap_eq (a : Nat) :
    readTrap a = if 0xFFF < a then some ⟨.dataAddress, BitVec.ofNat 16 a⟩ else none := rfl

theorem writeTrap_eq (a : Nat) : writeTrap a =
    if 0xFFF < a then some ⟨.dataAddress, BitVec.ofNat 16 a⟩
    else if a < 0x50 then some ⟨.fontWrite, BitVec.ofNat 16 a⟩ else none := by
  unfold writeTrap
  rw [readTrap_eq]
  by_cases h : 0xFFF < a
  · simp [h]
  · have hc : cellOf a = a := Nat.mod_eq_of_lt (by omega)
    simp [h, hc]

theorem memRead_eq (a : Nat) : s.memRead a =
    if 0xFFF < a then .error ⟨.dataAddress, BitVec.ofNat 16 a⟩ else .ok (s.byteAt a) := by
  unfold State.memRead
  rw [readTrap_eq]
  by_cases h : 0xFFF < a
  · simp [h]
  · have hc : cellOf a = a := Nat.mod_eq_of_lt (by omega)
    simp [h, hc]

theorem memWrite_eq (a : Nat) (b : Byte) : s.memWrite a b =
    if 0xFFF < a then .error ⟨.dataAddress, BitVec.ofNat 16 a⟩
    else if a < 0x50 then .error ⟨.fontWrite, BitVec.ofNat 16 a⟩ else .ok (s.poke a b) := by
  unfold State.memWrite
  rw [writeTrap_eq]
  by_cases h : 0xFFF < a
  · simp [h]
  · have hc : cellOf a = a := Nat.mod_eq_of_lt (by omega)
    by_cases hf : a < 0x50 <;> simp [h, hf, hc]

/-- LOAD, everything it can do: all bytes, or the lowest address above 0xFFF (R65, R254). -/
theorem loadBytes_eq (a n : Nat) : s.loadBytes a n =
    if n = 0 ∨ a + n ≤ 0x1000 then .ok ((List.range n).map fun k => s.byteAt (a + k))
    else .error ⟨.dataAddress, BitVec.ofNat 16 (max a 0x1000)⟩ := by
  induction n generalizing a with
  | zero => rfl
  | succ n ih =>
    unfold State.loadBytes
    rw [memRead_eq]
    by_cases ha : 0xFFF < a
    · rw [if_pos ha, if_neg (by omega), Nat.max_eq_left (by omega)]
    · rw [if_neg ha, ih]
      by_cases hn : n = 0 ∨ a + 1 + n ≤ 0x1000
      · rw [if_pos hn, if_pos (by omega), List.range_succ_eq_map]
        simp [Function.comp_def, Nat.add_comm, Nat.add_left_comm]
      · rw [if_neg hn, if_neg (by omega), Nat.max_eq_right (by omega), Nat.max_eq_right (by omega)]

/-- Bytes written one after the other, no check. -/
def State.pokes (s : State) (a : Nat) : List Byte → State
  | [] => s
  | b :: rest => (s.poke a b).pokes (a + 1) rest

/-- STORE, everything it can do: all bytes, or the fault of the lowest address that may not be written,
the range before the font (R66, R193, R194, R259). -/
theorem storeBytes_eq (a : Nat) (bytes : List Byte) : s.storeBytes a bytes =
    if bytes = [] ∨ Writable a bytes.length then .ok (s.pokes a bytes)
    else if a < 0x50 then .error ⟨.fontWrite, BitVec.ofNat 16 a⟩
    else .error ⟨.dataAddress, BitVec.ofNat 16 (max a 0x1000)⟩ := by
  induction bytes generalizing s a with
  | nil => rfl
  | cons b rest ih =>
    unfold State.storeBytes State.pokes
    rw [memWrite_eq]
    have hne : ¬ (b :: rest = []) := by simp
    by_cases ha : 0xFFF < a
    · rw [if_pos ha, if_neg (by simp [Writable]; omega), if_neg (by omega), Nat.max_eq_left (by omega)]
    · rw [if_neg ha]
      by_cases hf : a < 0x50
      · rw [if_pos hf, if_neg (by simp [Writable]; omega), if_pos hf]
      · rw [if_neg hf]
        simp only [ih]
        by_cases hr : rest = [] ∨ Writable (a + 1) rest.length
        · rw [if_pos hr, if_pos]
          right
          rcases hr with rfl | hr
          · simp [Writable]; omega
          · simp only [Writable, List.length_cons] at hr ⊢; omega
        · have hw : ¬ Writable (a + 1) rest.length := fun h => hr (.inr h)
          have hfull : ¬ (b :: rest = [] ∨ Writable a (b :: rest).length) := by
            simp only [Writable, List.length_cons, reduceCtorEq, false_or] at hw ⊢; omega
          have hlen : rest.length ≠ 0 := fun e => hr (.inl (List.eq_nil_of_length_eq_zero e))
          have hmax : max (a + 1) 0x1000 = max a 0x1000 := by omega
          rw [if_neg hr, if_neg hfull, if_neg hf, if_neg (by omega), hmax]

/-- Storing changes memory alone. -/
theorem pokes_eq (a : Nat) (bytes : List Byte) : s.pokes a bytes = { s with mem := (s.pokes a bytes).mem } := by
  induction bytes generalizing s a with
  | nil => rfl
  | cons b rest ih => unfold State.pokes; rw [ih]; rfl

theorem pokes_memWf (hwf : s.MemWf) (a : Nat) (bytes : List Byte) (h : a + bytes.length ≤ 0x1000) :
    (s.pokes a bytes).MemWf := by
  induction bytes generalizing s a with
  | nil => exact hwf
  | cons b rest ih =>
    simp only [List.length_cons] at h
    exact ih _ (poke_memWf s hwf (by omega) b) (a + 1) (by omega)

/-- The bytes after a store: the stored ones inside its range, the old ones outside. -/
theorem pokes_byteAt (hwf : s.MemWf) (a : Nat) (bytes : List Byte) (h : a + bytes.length ≤ 0x1000) (x : Nat) :
    (s.pokes a bytes).byteAt x =
      if a ≤ x ∧ x < a + bytes.length then bytes.getD (x - a) 0 else s.byteAt x := by
  induction bytes generalizing s a with
  | nil => rw [if_neg (by simp)]; rfl
  | cons b rest ih =>
    simp only [List.length_cons] at h ⊢
    unfold State.pokes
    rw [ih _ (poke_memWf s hwf (by omega) b) (a + 1) (by omega), poke_byteAt s hwf]
    by_cases hx : x = a
    · subst hx; simp
    · by_cases hin : a + 1 ≤ x ∧ x < a + 1 + rest.length
      · rw [if_pos hin, if_pos (by omega)]
        have : x - a = (x - (a + 1)) + 1 := by omega
        rw [this, List.getD_cons_succ]
      · rw [if_neg hin, if_neg (by omega), if_neg (by omega)]

/-! ### Fetch -/

/-- FETCH, everything it can do (R124, R67). -/
theorem fetch_eq : s.fetch =
    if 4094 ≤ s.pc.toNat then .error ⟨.fetchOutOfRange, s.pc⟩
    else .ok { s with ir := s.byteAt s.pc.toNat ++ s.byteAt (s.pc.toNat + 1), pc := s.pc + 2 } := by
  unfold State.fetch State.fetchWord
  rw [taken_fetchLimit]
  by_cases h : 4094 ≤ s.pc.toNat <;> simp [h]

/-! ### Call stack -/

/-- PUSH, everything it can do (R27). -/
theorem push_cases (a : Word) :
    (s.sp.val = 16 ∧ s.push a = .error ⟨.stackOverflow, a⟩) ∨
    (∃ (h : s.sp.val < 16) (sp' : Fin 17), sp'.val = s.sp.val + 1 ∧
      s.push a = .ok { s with stack := s.stack.set s.sp.val a h, sp := sp' }) := by
  unfold State.push
  by_cases h : s.sp.val < 16
  · exact .inr ⟨h, ⟨s.sp.val + 1, by omega⟩, rfl, dif_pos h⟩
  · exact .inl ⟨by omega, dif_neg h⟩

/-- POP, everything it can do (R28). -/
theorem pop_cases :
    (s.sp.val = 0 ∧ s.pop = .error ⟨.stackUnderflow, 0⟩) ∨
    (∃ (top : Fin 16) (sp' : Fin 17), s.sp.val = top.val + 1 ∧ sp'.val = top.val ∧
      s.pop = .ok (s.stack.get top, { s with sp := sp' })) := by
  unfold State.pop
  by_cases h : s.sp.val = 0
  · exact .inl ⟨h, if_pos h⟩
  · exact .inr ⟨⟨s.sp.val - 1, by omega⟩, ⟨s.sp.val - 1, by omega⟩, by show s.sp.val = s.sp.val - 1 + 1; omega, rfl, if_neg h⟩

/-! ### Registers in sequence -/

/-- Loading registers changes registers alone. -/
theorem setRegs_eq (k : Nat) (bytes : List Byte) : s.setRegs k bytes = { s with v := (s.setRegs k bytes).v } := by
  induction bytes generalizing s k with
  | nil => rfl
  | cons b rest ih => unfold State.setRegs; rw [ih]; rfl

theorem setRegs_reg (k : Nat) (bytes : List Byte) (h : k + bytes.length ≤ 16) (j : Reg) :
    (s.setRegs k bytes).reg j =
      if k ≤ j.val ∧ j.val < k + bytes.length then bytes.getD (j.val - k) 0 else s.reg j := by
  induction bytes generalizing s k with
  | nil => rw [if_neg (by simp)]; rfl
  | cons b rest ih =>
    simp only [List.length_cons] at h ⊢
    unfold State.setRegs
    rw [ih _ (k + 1) (by omega), setReg_reg]
    have hk : j = Fin.ofNat 16 k ↔ j.val = k := by
      rw [Fin.ext_iff, Fin.val_ofNat, Nat.mod_eq_of_lt (by omega)]
    by_cases hj : j.val = k
    · rw [if_neg (by omega), if_pos (hk.2 hj), if_pos (by omega), hj]; simp
    · by_cases hin : k + 1 ≤ j.val ∧ j.val < k + 1 + rest.length
      · rw [if_pos hin, if_pos (by omega)]
        have : j.val - k = (j.val - (k + 1)) + 1 := by omega
        rw [this, List.getD_cons_succ]
      · rw [if_neg hin, if_neg (fun e => hj (hk.1 e)), if_neg (by omega)]

@[simp] theorem regsUpTo_length (x : Reg) : (s.regsUpTo x).length = x.val + 1 := by
  simp [State.regsUpTo]

theorem regsUpTo_getD (x k : Reg) (h : k ≤ x) : (s.regsUpTo x).getD k.val 0 = s.reg k := by
  have hx := x.isLt
  have hk : k.val < x.val + 1 := Nat.lt_succ_of_le h
  simp [State.regsUpTo, State.reg, List.getD, hk, Vector.get_eq_getElem]

/-! ### Operands and flags as numbers -/

@[simp] theorem addrOf_toNat (nnn : Addr12) : (addrOf nnn).toNat = nnn.toNat := by
  have := nnn.isLt
  rw [addrOf, BitVec.toNat_setWidth, Nat.mod_eq_of_lt (by omega)]

@[simp] theorem widen_toNat (b : Byte) : (widen b).toNat = b.toNat := by
  have := b.isLt
  rw [widen, BitVec.toNat_setWidth, Nat.mod_eq_of_lt (by omega)]

theorem widen_eq_ofNat (b : Byte) : widen b = BitVec.ofNat 16 b.toNat := by simp [widen]

@[simp] theorem flagByte_toNat (b : Bool) : (flagByte b).toNat = if b = true then 1 else 0 := by
  cases b <;> rfl

theorem shiftedOutRight_toNat (b : Byte) : (flagByte (shiftedOutRight b)).toNat = b.toNat % 2 := by
  revert b; decide

theorem shiftedOutLeft_toNat (b : Byte) : (flagByte (shiftedOutLeft b)).toNat = b.toNat / 128 := by
  revert b; decide

theorem glyphAddr_toNat (b : Byte) : (glyphAddr b).toNat = 5 * (b.toNat % 16) := by
  revert b; decide

theorem decimalDigits_eq (b : Byte) : (decimalDigits b).map (·.toNat) =
    [b.toNat / 100, b.toNat / 10 % 10, b.toNat % 10] := by
  revert b; decide

/-! ### Keys and inputs -/

/-- THE KEY TEST, everything it can do (R236). -/
theorem keyTest_eq (b : Byte) : s.keyTest b =
    if 15 < b.toNat then .error ⟨.keyIndex, widen b⟩ else .ok (s.keyPressed (Fin.ofNat 16 b.toNat)) := rfl

/-- SAMPLING, everything it can do: the model's own input fields, nothing of the core (R120, R37). -/
theorem sample_cases :
    (s.pending = [] ∧ s.sample = { s with input := s.input.idle }) ∨
    (∃ p rest, s.pending = p :: rest ∧
      s.sample = { s with input := p, now := s.now + p.elapsed, pending := rest }) := by
  unfold State.sample
  cases h : s.pending with
  | nil => exact .inl ⟨rfl, rfl⟩
  | cons p rest => exact .inr ⟨p, rest, rfl, rfl⟩

theorem sample_unchanged : UnchangedExcept [.inputs] s s.sample := by
  intro p hp
  rcases sample_cases s with ⟨-, h⟩ | ⟨q, rest, -, h⟩ <;> rw [h] <;>
    cases p <;> first | exact absurd (List.mem_singleton.2 rfl) hp | exact fun _ => rfl | exact ⟨rfl, rfl, rfl⟩ |
      exact ⟨rfl, rfl⟩ | exact rfl

theorem sample_now_le : s.now ≤ s.sample.now := by
  rcases sample_cases s with ⟨-, h⟩ | ⟨p, rest, -, h⟩ <;> rw [h]
  exact Nat.le_add_right _ _

theorem sample_input_now (h : s.pending = []) : s.sample.now = s.now := by
  rcases sample_cases s with ⟨-, h⟩ | ⟨p, rest, h', -⟩
  · rw [h]
  · simp [h] at h'

/-- A DRAW, everything it can do (R171, R266). -/
theorem drawByte_cases :
    (∃ b, s.input.rand = some b ∧ s.drawByte = (b, s)) ∨
    (s.input.rand = none ∧ s.drawByte = (Config.freeRand s.draws, { s with draws := s.draws + 1 })) := by
  unfold State.drawByte
  cases h : s.input.rand with
  | some b => exact .inl ⟨b, rfl, rfl⟩
  | none => exact .inr ⟨rfl, rfl⟩

/-! ### Timers -/

/-- The value read, as a number: `max(0, value - elapsed ticks)` (R30). -/
theorem timerRead_toNat (timer : Timer) (q now : Nat) :
    (timer.read q now).toNat = timer.value.toNat - (now - timer.armedAt) / q := by
  have := timer.value.isLt
  rw [Timer.read, BitVec.toNat_ofNat]
  exact Nat.mod_eq_of_lt (Nat.lt_of_le_of_lt (Nat.sub_le _ _) this)

end Sys2Proof.Machine
end

