-- ==== Sys2Proof/Laws/Display.lean ====
section
/-! SUPPORT. The picture a sprite leaves: each visited pixel is inverted by its bit, every other pixel is
kept, and the collision is the OR over the visited pixels (R212, R213). -/

namespace Sys2Proof.Machine

/-- FB read after write. -/
theorem setPixel_pixel (fb : Framebuffer) (r r' : Fin 32) (c c' : Fin 64) (on : Bool) :
    pixel (setPixel fb r c on) r' c' = if r' = r ∧ c' = c then on else pixel fb r' c' := by
  unfold pixel setPixel
  simp only [Vector.get_eq_getElem, Vector.getElem_set, Fin.ext_iff]
  by_cases hr : r.val = r'.val
  · have hrr : r = r' := Fin.ext hr
    subst hrr
    cases on <;> by_cases hc : c'.val = c.val <;> simp [hc] <;> omega
  · simp [hr, Ne.symm hr]

@[simp] theorem clearedFb_pixel (r : Fin 32) (c : Fin 64) : pixel clearedFb r c = false := by
  simp [pixel, clearedFb, Vector.get_eq_getElem]

/-- No pixel is visited twice (R212): the rows of at most 32 differ, and the 8 columns differ. -/
theorem visits_distinct (vx vy : Byte) (sprite : List Byte) (h : sprite.length ≤ 32) :
    (visits vx vy sprite).Pairwise fun u v => ¬ (u.row = v.row ∧ u.col = v.col) := by
  unfold visits
  rw [List.pairwise_flatMap]
  constructor
  · intro r _
    rw [List.pairwise_map]
    refine List.Pairwise.imp_of_mem ?_ List.pairwise_lt_range
    intro a b ha hb hab hc
    have hcol := hc.2
    simp only [Fin.ext_iff, Fin.val_ofNat, List.mem_range] at hcol ha hb
    omega
  · refine List.Pairwise.imp_of_mem ?_ List.pairwise_lt_range
    intro r r' hr hr' hlt u hu v hv hc
    obtain ⟨b, -, rfl⟩ := List.mem_map.1 hu
    obtain ⟨b', -, rfl⟩ := List.mem_map.1 hv
    have hrow := hc.1
    simp only [Fin.ext_iff, Fin.val_ofNat, List.mem_range] at hrow hr hr'
    omega

theorem mem_visits (vx vy : Byte) (sprite : List Byte) (v : Visit) :
    v ∈ visits vx vy sprite ↔ ∃ r b : Nat, r < sprite.length ∧ b < 8 ∧
      v = ⟨Fin.ofNat 32 (vy.toNat + r), Fin.ofNat 64 (vx.toNat + b), (sprite.getD r 0).getLsbD (7 - b)⟩ := by
  simp only [visits, List.mem_flatMap, List.mem_map, List.mem_range]
  constructor
  · rintro ⟨r, hr, b, hb, rfl⟩; exact ⟨r, b, hr, hb, rfl⟩
  · rintro ⟨r, b, hr, hb, rfl⟩; exact ⟨r, hr, b, hb, rfl⟩

theorem drawBit_pixel (canvas : Canvas) (v : Visit) (r : Fin 32) (c : Fin 64) :
    pixel (drawBit canvas v).fb r c =
      if r = v.row ∧ c = v.col then pixel canvas.fb r c ^^ v.bit else pixel canvas.fb r c := by
  unfold drawBit
  rw [setPixel_pixel]
  split
  · next h => rw [h.1, h.2]
  · rfl

/-- Pixels that no visit names are kept. -/
theorem draw_outside (list : List Visit) (canvas : Canvas) (r : Fin 32) (c : Fin 64)
    (h : ∀ v ∈ list, ¬ (r = v.row ∧ c = v.col)) : pixel (list.foldl drawBit canvas).fb r c = pixel canvas.fb r c := by
  induction list generalizing canvas with
  | nil => rfl
  | cons v rest ih =>
    rw [List.foldl_cons, ih _ fun u hu => h u (List.mem_cons_of_mem _ hu), drawBit_pixel,
      if_neg (h v List.mem_cons_self)]

/-- A visited pixel is inverted exactly when its sprite bit is set. -/
theorem draw_inside (list : List Visit) (canvas : Canvas)
    (hd : list.Pairwise fun u v => ¬ (u.row = v.row ∧ u.col = v.col)) (v : Visit) (hv : v ∈ list) :
    pixel (list.foldl drawBit canvas).fb v.row v.col = (pixel canvas.fb v.row v.col ^^ v.bit) := by
  induction list generalizing canvas with
  | nil => simp at hv
  | cons u rest ih =>
    obtain ⟨hu, hrest⟩ := List.pairwise_cons.1 hd
    rw [List.foldl_cons]
    rcases List.mem_cons.1 hv with rfl | hv
    · rw [draw_outside _ _ _ _ (fun w hw => hu w hw), drawBit_pixel, if_pos ⟨rfl, rfl⟩]
    · rw [ih _ hrest hv, drawBit_pixel, if_neg fun e => hu v hv ⟨e.1.symm, e.2.symm⟩]

/-- The collision of a whole drawing: some set bit falls on a pixel that was on. -/
theorem draw_hit (list : List Visit) (canvas : Canvas)
    (hd : list.Pairwise fun u v => ¬ (u.row = v.row ∧ u.col = v.col)) :
    (list.foldl drawBit canvas).hit = true ↔
      canvas.hit = true ∨ ∃ v ∈ list, v.bit = true ∧ pixel canvas.fb v.row v.col = true := by
  induction list generalizing canvas with
  | nil => simp
  | cons u rest ih =>
    obtain ⟨hu, hrest⟩ := List.pairwise_cons.1 hd
    have hkeep : ∀ v ∈ rest, pixel (drawBit canvas u).fb v.row v.col = pixel canvas.fb v.row v.col :=
      fun v hv => by rw [drawBit_pixel, if_neg fun e => hu v hv ⟨e.1.symm, e.2.symm⟩]
    have hhit : (drawBit canvas u).hit = true ↔
        canvas.hit = true ∨ (u.bit = true ∧ pixel canvas.fb u.row u.col = true) := by
      simp only [drawBit, collides]
      cases canvas.hit <;> cases u.bit <;> cases pixel canvas.fb u.row u.col <;> simp
    rw [List.foldl_cons, ih _ hrest, hhit, List.exists_mem_cons_iff, or_assoc]
    refine or_congr_right (or_congr_right ?_)
    constructor
    · rintro ⟨v, hv, hb, hp⟩; exact ⟨v, hv, hb, by rwa [hkeep v hv] at hp⟩
    · rintro ⟨v, hv, hb, hp⟩; exact ⟨v, hv, hb, by rwa [hkeep v hv]⟩

section sprite
variable (vx vy : Byte) (sprite : List Byte) (fb : Framebuffer)

/-- DRAW, the visited pixels (R211 to R213). -/
theorem drawSprite_inside {r b : Nat} (hr : r < sprite.length) (hb : b < 8) (h : sprite.length ≤ 32) :
    pixel (drawSprite vx vy sprite fb).fb (Fin.ofNat 32 (vy.toNat + r)) (Fin.ofNat 64 (vx.toNat + b)) =
      (pixel fb (Fin.ofNat 32 (vy.toNat + r)) (Fin.ofNat 64 (vx.toNat + b)) ^^
        (sprite.getD r 0).getLsbD (7 - b)) :=
  draw_inside (visits vx vy sprite) ⟨fb, false⟩ (visits_distinct vx vy sprite h)
    ⟨Fin.ofNat 32 (vy.toNat + r), Fin.ofNat 64 (vx.toNat + b), (sprite.getD r 0).getLsbD (7 - b)⟩
    ((mem_visits vx vy sprite _).2 ⟨r, b, hr, hb, rfl⟩)

/-- DRAW, every other pixel (R212). -/
theorem drawSprite_outside (row : Fin 32) (col : Fin 64)
    (hout : ∀ r b : Nat, r < sprite.length → b < 8 →
      ¬ (row = Fin.ofNat 32 (vy.toNat + r) ∧ col = Fin.ofNat 64 (vx.toNat + b))) :
    pixel (drawSprite vx vy sprite fb).fb row col = pixel fb row col := by
  apply draw_outside
  intro v hv
  obtain ⟨r, b, hr, hb, rfl⟩ := (mem_visits vx vy sprite v).1 hv
  exact hout r b hr hb

/-- DRAW, the collision (R213). -/
theorem drawSprite_hit (h : sprite.length ≤ 32) : (drawSprite vx vy sprite fb).hit = true ↔
    ∃ r b : Nat, r < sprite.length ∧ b < 8 ∧ (sprite.getD r 0).getLsbD (7 - b) = true ∧
      pixel fb (Fin.ofNat 32 (vy.toNat + r)) (Fin.ofNat 64 (vx.toNat + b)) = true := by
  rw [drawSprite, draw_hit _ _ (visits_distinct vx vy sprite h)]
  constructor
  · rintro (h | ⟨v, hv, hbit, hp⟩)
    · exact absurd h (by simp)
    · obtain ⟨r, b, hr, hb, rfl⟩ := (mem_visits vx vy sprite v).1 hv
      exact ⟨r, b, hr, hb, hbit, hp⟩
  · rintro ⟨r, b, hr, hb, hbit, hp⟩
    exact .inr ⟨_, (mem_visits vx vy sprite _).2 ⟨r, b, hr, hb, rfl⟩, hbit, hp⟩

end sprite

/-- Two framebuffers with the same pixels are the same. -/
theorem framebuffer_ext (a b : Framebuffer) (h : ∀ r c, pixel a r c = pixel b r c) : a = b := by
  apply Vector.ext
  intro r hr
  apply BitVec.eq_of_getLsbD_eq
  intro c hc
  exact h ⟨r, hr⟩ ⟨c, hc⟩

end Sys2Proof.Machine
end

