-- ==== Sys2Proof/Laws/PerInstr.lean ====
section
/-! SUPPORT. Statements about every instruction as syntax, one lemma for each constructor. -/

namespace Sys2Proof.Laws

/-- The word of a well-formed instruction carries the literal digits of its own row of R95: that row
selects it. -/
def EncodeCarriesPattern.Statement (i : Instr) : Prop :=
  i.wf = true → ∀ r ∈ opcodeTable, r.mnemonic = i.mnemonic → r.selects (encode i) = true

/-- A word that agrees with the one row of its mnemonic is selected by that row. -/
theorem selects_of_row {m : String} {mask pattern w : Word} (hw : w &&& mask = pattern)
    (hrow : opcodeTable.filter (fun r => r.mnemonic == m) = [⟨m, mask, pattern⟩]) :
    ∀ r ∈ opcodeTable, r.mnemonic = m → r.selects w = true := by
  intro r hr hm
  have hmem : r ∈ opcodeTable.filter (fun r => r.mnemonic == m) := List.mem_filter.2 ⟨hr, by simp [hm]⟩
  rw [hrow, List.mem_singleton] at hmem
  subst hmem
  simp [Row.selects, hw]

theorem EncodeCarriesPattern.cls : Statement .cls :=
  fun _ => selects_of_row (m := "CLS") (mask := 0xFFFF) (pattern := 0x00E0) rfl (by decide)

theorem EncodeCarriesPattern.ret : Statement .ret :=
  fun _ => selects_of_row (m := "RET") (mask := 0xFFFF) (pattern := 0x00EE) rfl (by decide)

theorem EncodeCarriesPattern.jp (nnn : Addr12) : Statement (.jp nnn) :=
  fun _ => selects_of_row (m := "JP") (mask := 0xF000) (pattern := 0x1000) (mask_nnn _ _) (by decide)

theorem EncodeCarriesPattern.call (nnn : Addr12) : Statement (.call nnn) :=
  fun _ => selects_of_row (m := "CALL") (mask := 0xF000) (pattern := 0x2000) (mask_nnn _ _) (by decide)

theorem EncodeCarriesPattern.seImm (x : Reg) (nn : Byte) : Statement (.seImm x nn) :=
  fun _ => selects_of_row (m := "SE_IMM") (mask := 0xF000) (pattern := 0x3000) (mask_xnn _ _ _) (by decide)

theorem EncodeCarriesPattern.sneImm (x : Reg) (nn : Byte) : Statement (.sneImm x nn) :=
  fun _ => selects_of_row (m := "SNE_IMM") (mask := 0xF000) (pattern := 0x4000) (mask_xnn _ _ _) (by decide)

theorem EncodeCarriesPattern.seReg (x y : Reg) : Statement (.seReg x y) :=
  fun _ => selects_of_row (m := "SE_REG") (mask := 0xF00F) (pattern := 0x5000) (mask_xy0 _ _ _ _) (by decide)

theorem EncodeCarriesPattern.ldImm (x : Reg) (nn : Byte) : Statement (.ldImm x nn) :=
  fun _ => selects_of_row (m := "LD_IMM") (mask := 0xF000) (pattern := 0x6000) (mask_xnn _ _ _) (by decide)

theorem EncodeCarriesPattern.addImm (x : Reg) (nn : Byte) : Statement (.addImm x nn) :=
  fun _ => selects_of_row (m := "ADD_IMM") (mask := 0xF000) (pattern := 0x7000) (mask_xnn _ _ _) (by decide)

theorem EncodeCarriesPattern.ldReg (x y : Reg) : Statement (.ldReg x y) :=
  fun _ => selects_of_row (m := "LD_REG") (mask := 0xF00F) (pattern := 0x8000) (mask_xy0 _ _ _ _) (by decide)

theorem EncodeCarriesPattern.or (x y : Reg) : Statement (.or x y) :=
  fun _ => selects_of_row (m := "OR") (mask := 0xF00F) (pattern := 0x8001) (mask_xy0 _ _ _ _) (by decide)

theorem EncodeCarriesPattern.and (x y : Reg) : Statement (.and x y) :=
  fun _ => selects_of_row (m := "AND") (mask := 0xF00F) (pattern := 0x8002) (mask_xy0 _ _ _ _) (by decide)

theorem EncodeCarriesPattern.xor (x y : Reg) : Statement (.xor x y) :=
  fun _ => selects_of_row (m := "XOR") (mask := 0xF00F) (pattern := 0x8003) (mask_xy0 _ _ _ _) (by decide)

theorem EncodeCarriesPattern.addReg (x y : Reg) : Statement (.addReg x y) :=
  fun _ => selects_of_row (m := "ADD_REG") (mask := 0xF00F) (pattern := 0x8004) (mask_xy0 _ _ _ _) (by decide)

theorem EncodeCarriesPattern.sub (x y : Reg) : Statement (.sub x y) :=
  fun _ => selects_of_row (m := "SUB") (mask := 0xF00F) (pattern := 0x8005) (mask_xy0 _ _ _ _) (by decide)

theorem EncodeCarriesPattern.shr (x y : Reg) : Statement (.shr x y) :=
  fun _ => selects_of_row (m := "SHR") (mask := 0xF00F) (pattern := 0x8006) (mask_xy0 _ _ _ _) (by decide)

theorem EncodeCarriesPattern.subn (x y : Reg) : Statement (.subn x y) :=
  fun _ => selects_of_row (m := "SUBN") (mask := 0xF00F) (pattern := 0x8007) (mask_xy0 _ _ _ _) (by decide)

theorem EncodeCarriesPattern.shl (x y : Reg) : Statement (.shl x y) :=
  fun _ => selects_of_row (m := "SHL") (mask := 0xF00F) (pattern := 0x800E) (mask_xy0 _ _ _ _) (by decide)

theorem EncodeCarriesPattern.sneReg (x y : Reg) : Statement (.sneReg x y) :=
  fun _ => selects_of_row (m := "SNE_REG") (mask := 0xF00F) (pattern := 0x9000) (mask_xy0 _ _ _ _) (by decide)

theorem EncodeCarriesPattern.ldI (nnn : Addr12) : Statement (.ldI nnn) :=
  fun _ => selects_of_row (m := "LD_I") (mask := 0xF000) (pattern := 0xA000) (mask_nnn _ _) (by decide)

theorem EncodeCarriesPattern.jpV0 (nnn : Addr12) : Statement (.jpV0 nnn) :=
  fun _ => selects_of_row (m := "JP_V0") (mask := 0xF000) (pattern := 0xB000) (mask_nnn _ _) (by decide)

theorem EncodeCarriesPattern.rnd (x : Reg) (nn : Byte) : Statement (.rnd x nn) :=
  fun _ => selects_of_row (m := "RND") (mask := 0xF000) (pattern := 0xC000) (mask_xnn _ _ _) (by decide)

theorem EncodeCarriesPattern.drw (x y : Reg) (n : Nibble) : Statement (.drw x y n) :=
  fun _ => selects_of_row (m := "DRW") (mask := 0xF000) (pattern := 0xD000) (mask_xyn _ _ _ _) (by decide)

theorem EncodeCarriesPattern.skp (x : Reg) : Statement (.skp x) :=
  fun _ => selects_of_row (m := "SKP") (mask := 0xF0FF) (pattern := 0xE09E) (mask_xss _ _ _) (by decide)

theorem EncodeCarriesPattern.sknp (x : Reg) : Statement (.sknp x) :=
  fun _ => selects_of_row (m := "SKNP") (mask := 0xF0FF) (pattern := 0xE0A1) (mask_xss _ _ _) (by decide)

theorem EncodeCarriesPattern.ldVxDt (x : Reg) : Statement (.ldVxDt x) :=
  fun _ => selects_of_row (m := "LD_VX_DT") (mask := 0xF0FF) (pattern := 0xF007) (mask_xss _ _ _) (by decide)

theorem EncodeCarriesPattern.ldVxK (x : Reg) : Statement (.ldVxK x) :=
  fun _ => selects_of_row (m := "LD_VX_K") (mask := 0xF0FF) (pattern := 0xF00A) (mask_xss _ _ _) (by decide)

theorem EncodeCarriesPattern.ldDtVx (x : Reg) : Statement (.ldDtVx x) :=
  fun _ => selects_of_row (m := "LD_DT_VX") (mask := 0xF0FF) (pattern := 0xF015) (mask_xss _ _ _) (by decide)

theorem EncodeCarriesPattern.ldStVx (x : Reg) : Statement (.ldStVx x) :=
  fun _ => selects_of_row (m := "LD_ST_VX") (mask := 0xF0FF) (pattern := 0xF018) (mask_xss _ _ _) (by decide)

theorem EncodeCarriesPattern.addI (x : Reg) : Statement (.addI x) :=
  fun _ => selects_of_row (m := "ADD_I") (mask := 0xF0FF) (pattern := 0xF01E) (mask_xss _ _ _) (by decide)

theorem EncodeCarriesPattern.ldF (x : Reg) : Statement (.ldF x) :=
  fun _ => selects_of_row (m := "LD_F") (mask := 0xF0FF) (pattern := 0xF029) (mask_xss _ _ _) (by decide)

theorem EncodeCarriesPattern.ldB (x : Reg) : Statement (.ldB x) :=
  fun _ => selects_of_row (m := "LD_B") (mask := 0xF0FF) (pattern := 0xF033) (mask_xss _ _ _) (by decide)

theorem EncodeCarriesPattern.ldMemVx (x : Reg) : Statement (.ldMemVx x) :=
  fun _ => selects_of_row (m := "LD_MEM_VX") (mask := 0xF0FF) (pattern := 0xF055) (mask_xss _ _ _) (by decide)

theorem EncodeCarriesPattern.ldVxMem (x : Reg) : Statement (.ldVxMem x) :=
  fun _ => selects_of_row (m := "LD_VX_MEM") (mask := 0xF0FF) (pattern := 0xF065) (mask_xss _ _ _) (by decide)

theorem EncodeCarriesPattern.unrecognised (w : Word) : Statement (.unrecognised w) := by
  intro _ r hr hm
  have hnone : opcodeTable.all (fun r => r.mnemonic != "UNRECOGNISED") = true := by decide
  have hr' : r.mnemonic ≠ "UNRECOGNISED" := by simpa using List.all_eq_true.1 hnone r hr
  exact absurd hm hr'

end Sys2Proof.Laws
end

