-- ==== Sys2Proof/Laws/Step.lean ====
section
/-! SUPPORT. What a step can do, said once, and how frames combine. -/

namespace Sys2Proof.Machine

/-! ### Frames -/

theorem UnchangedExcept.refl (parts : List Part) (s : State) : UnchangedExcept parts s s := by
  intro p _
  cases p <;> simp [Part.Same]

theorem UnchangedExcept.mono {parts more : List Part} {s t : State} (h : UnchangedExcept parts s t)
    (hsub : ∀ p ∈ parts, p ∈ more) : UnchangedExcept more s t :=
  fun p hp => h p fun e => hp (hsub p e)

theorem UnchangedExcept.trans {parts : List Part} {s t u : State} (h : UnchangedExcept parts s t)
    (h' : UnchangedExcept parts t u) : UnchangedExcept parts s u := by
  intro p hp
  have a := h p hp
  have b := h' p hp
  cases p <;> simp only [Part.Same] at * <;> simp_all

/-! ### Sampling leaves the core alone (R120) -/

variable (s : State)

@[simp] theorem sample_launch : s.sample.launch = s.launch := sample_unchanged s .launch (by decide)
@[simp] theorem sample_byteAt (a : Nat) : s.sample.byteAt a = s.byteAt a := sample_unchanged s .mem (by decide) a
@[simp] theorem sample_reg (k : Reg) : s.sample.reg k = s.reg k := sample_unchanged s .v (by decide) k
@[simp] theorem sample_i : s.sample.i = s.i := sample_unchanged s .i (by decide)
@[simp] theorem sample_pc : s.sample.pc = s.pc := sample_unchanged s .pc (by decide)
@[simp] theorem sample_ir : s.sample.ir = s.ir := sample_unchanged s .ir (by decide)
@[simp] theorem sample_stack : s.sample.stack = s.stack := (sample_unchanged s .stack (by decide)).1
@[simp] theorem sample_sp : s.sample.sp = s.sp := (sample_unchanged s .stack (by decide)).2
@[simp] theorem sample_dt : s.sample.dt = s.dt := sample_unchanged s .dt (by decide)
@[simp] theorem sample_st : s.sample.st = s.st := sample_unchanged s .st (by decide)
@[simp] theorem sample_fb : s.sample.fb = s.fb := sample_unchanged s .fb (by decide)
@[simp] theorem sample_run : s.sample.run = s.run := (sample_unchanged s .control (by decide)).1
@[simp] theorem sample_fault : s.sample.fault = s.fault := (sample_unchanged s .control (by decide)).2.1
@[simp] theorem sample_faultInfo : s.sample.faultInfo = s.faultInfo :=
  (sample_unchanged s .control (by decide)).2.2
@[simp] theorem sample_presented : s.sample.presented = s.presented :=
  sample_unchanged s .presented (by decide)
@[simp] theorem sample_draws : s.sample.draws = s.draws := sample_unchanged s .draws (by decide)

@[simp] theorem sample_mem : s.sample.mem = s.mem := by
  rcases sample_cases s with ⟨-, h⟩ | ⟨p, rest, -, h⟩ <;> rw [h]

/-! ### The step -/

/-- A STEP, everything it can do (R120 to R124): each way has its guard. -/
theorem step_cases :
    (s.run = .halted ∧ step s = .next s.sample) ∨
    (s.run ≠ .halted ∧ s.sample.input.stopReq = true ∧ step s = .next s.sample.stop) ∨
    (s.run = .awaitingKey ∧ s.sample.input.stopReq = false ∧ step s = .next s.sample.keyWait) ∨
    (s.run = .running ∧ s.sample.input.stopReq = false ∧ 4094 ≤ s.pc.toNat ∧
      step s = .next (s.sample.raise ⟨.fetchOutOfRange, s.pc⟩)) ∨
    (s.run = .running ∧ s.sample.input.stopReq = false ∧ s.pc.toNat < 4094 ∧
      step s = exec (decodeWord s.nextWord) s.fetched) := by
  have hcycle : step s = cycle s.sample := rfl
  unfold cycle at hcycle
  rw [sample_run] at hcycle
  cases hrun : s.run with
  | halted => exact .inl ⟨rfl, by rw [hcycle, hrun]⟩
  | awaitingKey =>
    simp only [hrun] at hcycle
    cases hstop : s.sample.input.stopReq with
    | true => exact .inr (.inl ⟨by simp, rfl, by rw [hcycle, if_pos hstop]⟩)
    | false => exact .inr (.inr (.inl ⟨rfl, rfl, by rw [hcycle, if_neg (by simp [hstop])]⟩))
  | running =>
    simp only [hrun] at hcycle
    cases hstop : s.sample.input.stopReq with
    | true => exact .inr (.inl ⟨by simp, rfl, by rw [hcycle, if_pos hstop]⟩)
    | false =>
      rw [if_neg (by simp [hstop]), runInstruction, fetch_eq] at hcycle
      simp only [sample_pc, sample_byteAt] at hcycle
      by_cases hpc : 4094 ≤ s.pc.toNat
      · exact .inr (.inr (.inr (.inl ⟨rfl, rfl, hpc, by rw [hcycle, if_pos hpc]⟩)))
      · exact .inr (.inr (.inr (.inr ⟨rfl, rfl, Nat.lt_of_not_le hpc, by rw [hcycle, if_neg hpc]; rfl⟩)))

end Sys2Proof.Machine
end

