-- ==== Sys2Proof/Tests/Slice0.lean ====
section
/-! SUPPORT. The model's own tests. Expected values come from spec/95_test_vectors.md (the ids F1, A8, ...
are its rows) and from the encodings of 30_encoding.md; none of them was copied from the model. Last stands
a witness for the hypotheses of every obligation that has any. -/

namespace Sys2Proof.Tests

open Sys2Proof.Machine

/-! ## Well-formed instructions (the one check: R96) -/

theorem test_wf_refuses_ill_formed :
    (Instr.unrecognised 0x00E0).wf = false ∧ (Instr.unrecognised 0x00EE).wf = false ∧
    (Instr.unrecognised 0x1234).wf = false ∧ (Instr.unrecognised 0x5120).wf = false ∧
    (Instr.unrecognised 0x8127).wf = false ∧ (Instr.unrecognised 0x9120).wf = false ∧
    (Instr.unrecognised 0xE19E).wf = false ∧ (Instr.unrecognised 0xF165).wf = false := by decide

theorem test_wf_accepts_unrecognised :
    ([0x0000, 0x01E0, 0x5121, 0x8128, 0x812F, 0x9121, 0xE1A2, 0xF075, 0xFFFF] : List Word).all
      (fun w => (Instr.unrecognised w).wf) = true := by decide

/-! ## Decoding: words written out bit by bit from the Encoding lines of the instruction rules -/

theorem test_decode_flow :
    decodeWord 0b0000000011100000 = .cls ∧ decodeWord 0b0000000011101110 = .ret ∧
    decodeWord 0b0001101010111100 = .jp 0xABC ∧ decodeWord 0b0010001100000001 = .call 0x301 ∧
    decodeWord 0b0011101000000101 = .seImm 10 0x05 ∧ decodeWord 0b0100101100000110 = .sneImm 11 0x06 ∧
    decodeWord 0b0101000100100000 = .seReg 1 2 ∧ decodeWord 0b1001000100100000 = .sneReg 1 2 ∧
    decodeWord 0b1011001000010000 = .jpV0 0x210 := by decide

theorem test_decode_alu :
    decodeWord 0b0110101000101111 = .ldImm 10 0x2F ∧ decodeWord 0b0111101000000001 = .addImm 10 0x01 ∧
    decodeWord 0b1000000100100000 = .ldReg 1 2 ∧ decodeWord 0b1000000100100001 = .or 1 2 ∧
    decodeWord 0b1000000100100010 = .and 1 2 ∧ decodeWord 0b1000000100100011 = .xor 1 2 ∧
    decodeWord 0b1000000100100100 = .addReg 1 2 ∧ decodeWord 0b1000000100100101 = .sub 1 2 ∧
    decodeWord 0b1000000100100110 = .shr 1 2 ∧ decodeWord 0b1000000100100111 = .subn 1 2 ∧
    decodeWord 0b1000000100101110 = .shl 1 2 ∧ decodeWord 0b1100000100001111 = .rnd 1 0x0F := by decide

theorem test_decode_memory :
    decodeWord 0b1010001011110000 = .ldI 0x2F0 ∧ decodeWord 0b1111000100011110 = .addI 1 ∧
    decodeWord 0b1111000100101001 = .ldF 1 ∧ decodeWord 0b1111000100110011 = .ldB 1 ∧
    decodeWord 0b1111001001010101 = .ldMemVx 2 ∧ decodeWord 0b1111001001100101 = .ldVxMem 2 := by decide

theorem test_decode_devices :
    decodeWord 0b1101000000010101 = .drw 0 1 5 ∧ decodeWord 0b1110000110011110 = .skp 1 ∧
    decodeWord 0b1110000110100001 = .sknp 1 ∧ decodeWord 0b1111001000000111 = .ldVxDt 2 ∧
    decodeWord 0b1111001100001010 = .ldVxK 3 ∧ decodeWord 0b1111000100010101 = .ldDtVx 1 ∧
    decodeWord 0b1111001000011000 = .ldStVx 2 := by decide

/-- F23: every word of the row decodes to itself, unrecognised (strict digits, D9). -/
theorem test_decode_unrecognised :
    ([0x0000, 0x0123, 0x00E1, 0x01E0, 0x00FF, 0x00FE, 0x5121, 0x512F, 0x8128, 0x812F, 0x9121, 0xE19F,
      0xE1A2, 0xF100, 0xF1FF, 0xF075, 0xFFFF] : List Word).all
      (fun w => decodeWord w == .unrecognised w) = true := by decide

theorem test_decode_bytes : decode [0xA2, 0xF0, 0x12] = .ok (.ldI 0x2F0, [0x12]) ∧
    decode [0xA2] = .error .truncated ∧ decodeTableWord 16 0xF30A = some (.ldVxK 3) := by decide

/-- No word is selected by two rows of R95: any two rows differ in a digit that both compare. -/
theorem test_rows_do_not_overlap :
    opcodeTable.Pairwise fun r q => r.pattern &&& (r.mask &&& q.mask) ≠ q.pattern &&& (r.mask &&& q.mask) := by
  decide

/-! ## Small states -/

/-- The reset state with these registers and this `I`. -/
def start (regs : List (Reg × Byte)) (i : Word := 0) : State :=
  regs.foldl (fun s p => s.setReg p.1 p.2) (State.reset.setI i)

/-- Bytes placed in memory. -/
def State.withBytes (s : State) (a : Nat) (bytes : List Byte) : State := s.pokes a bytes

/-- The next state that an outcome answers. -/
def nextOf : Result → Option State
  | .next t => some t
  | .fault _ => none
  | .refused _ => none

/-- One step on this word, as the vectors have it: the word at `PC`, then a step. -/
def after (w : Word) (s : State) : State := (nextOf (step (s.withFetchWord 16 w.toNat))).getD s

/-- The machine's reset state with this call depth. -/
def atDepth (sp : Fin 17) : State := { State.reset with sp := sp }

/-- The reset state whose next step has this sample. -/
def given (input : Sample) (s : State) : State := { s with pending := [input] }

/-- The fault fields. -/
def faultOf (s : State) : RunState × FaultCause × Word := (s.run, s.fault, s.faultInfo)

/-- The pixels of a row that are on, as the row's bits. -/
def rowBits (s : State) (r : Fin 32) : BitVec 64 := s.fb.get r

/-! ## Control flow -/

theorem test_F1_F2 :
    ((after 0x00EE { State.reset with sp := 1, stack := State.reset.stack.set 0 0x206 }).pc = 0x206) ∧
    faultOf (after 0x00EE State.reset) = (.halted, .stackUnderflow, 0) := by decide

theorem test_F4_F5 : (after 0x1ABC State.reset).pc = 0xABC ∧ (after 0x1FFE State.reset).pc = 0xFFE ∧
    (after 0x1FFE State.reset).run = .running := by decide

theorem test_F8 : (let t := after 0x2300 (atDepth 15); (t.pc, t.sp.val, t.stack.get 15)) = (0x300, 16, 0x202) := by
  decide

theorem test_F9 : (let t := after 0x2300 (atDepth 16); (t.pc, t.sp.val, faultOf t)) =
    (0x202, 16, (.halted, .stackOverflow, 0x202)) := by decide

theorem test_F10_F13 : (after 0x3A05 (start [(10, 5)])).pc = 0x204 ∧ (after 0x3A05 (start [(10, 6)])).pc = 0x202 ∧
    (after 0x4A05 (start [(10, 5)])).pc = 0x202 ∧ (after 0x4A05 (start [(10, 6)])).pc = 0x204 := by decide

theorem test_F14_F19 : (after 0x5120 (start [(1, 0x33), (2, 0x33)])).pc = 0x204 ∧
    (after 0x5120 (start [(1, 0x33), (2, 0x34)])).pc = 0x202 ∧ (after 0x5110 (start [(1, 0x77)])).pc = 0x204 ∧
    (after 0x9120 (start [(1, 0x33), (2, 0x34)])).pc = 0x204 ∧
    (after 0x9120 (start [(1, 0x33), (2, 0x33)])).pc = 0x202 ∧ (after 0x9110 (start [(1, 0x77)])).pc = 0x202 := by
  decide

theorem test_F20_F21 : (after 0xB210 (start [(0, 0x06)])).pc = 0x216 ∧
    (after 0xBFFF (start [(0, 0xFF)])).pc = 0x10FE := by decide

theorem test_F23 : (let t := after 0x5121 (start [(1, 0x12), (2, 0x34)] 0x300);
    (t.ir, t.pc, t.v, t.i, t.run)) = (0x5121, 0x202, (start [(1, 0x12), (2, 0x34)]).v, 0x300, .running) := by decide

theorem test_F24_fetch_at_4093 :
    nextOf (step (State.withBytes { State.reset with pc := 0xFFD } 0xFFD [0x12, 0x00])) =
      some { (State.withBytes State.reset 0xFFD [0x12, 0x00]) with ir := 0x1200, pc := 0x200 } := by
  decide

theorem test_F25_fetch_at_4094 : nextOf (step { State.reset with pc := 0xFFE }) =
    some { State.reset with pc := 0xFFE, run := .halted, fault := .fetchOutOfRange, faultInfo := 0xFFE } := by
  decide

theorem test_F27 : (let t := after 0x3000 { State.reset with pc := 0xFFC }; (t.pc, t.run)) = (0x1000, .running) := by
  decide

/-! ## Registers and arithmetic: the destination and `VF` -/

/-- `V1` and `VF` after a word. -/
def v1vf (w : Word) (regs : List (Reg × Byte)) : Byte × Byte :=
  ((after w (start regs)).reg 1, (after w (start regs)).reg 15)

theorem test_A1_A3 : (after 0x6A2F State.reset).reg 10 = 0x2F ∧
    (let t := after 0x7A01 (start [(10, 0xFF), (15, 1)]); (t.reg 10, t.reg 15)) = (0x00, 0x01) := by decide

theorem test_A6_A7 : v1vf 0x8120 [(2, 0x7B)] = (0x7B, 0) ∧ v1vf 0x8121 [(1, 0x0F), (2, 0xF0), (15, 1)] = (0xFF, 1) ∧
    v1vf 0x8122 [(1, 0x3C), (2, 0x0F), (15, 1)] = (0x0C, 1) ∧
    v1vf 0x8123 [(1, 0xFF), (2, 0x0F), (15, 1)] = (0xF0, 1) := by decide

theorem test_A9_A14 : v1vf 0x8124 [(1, 0xFF), (2, 0x01)] = (0x00, 1) ∧
    v1vf 0x8124 [(1, 0x80), (2, 0x7F), (15, 1)] = (0xFF, 0) ∧ v1vf 0x81F4 [(1, 0xFE), (15, 3)] = (0x01, 1) := by
  decide

theorem test_A15b : (after 0x8F24 (start [(15, 0xF3), (2, 0x10)])).reg 15 = 0x03 := by decide

theorem test_A17_A24 : v1vf 0x8125 [(1, 0x10), (2, 0x20), (15, 1)] = (0xF0, 0) ∧
    v1vf 0x8125 [(1, 0x20), (2, 0x20)] = (0x00, 1) ∧ v1vf 0x81F5 [(1, 0x05), (15, 0x09)] = (0xFC, 0) := by decide

theorem test_A27_A28 : v1vf 0x8127 [(1, 0x10), (2, 0x20)] = (0x10, 1) ∧
    v1vf 0x8127 [(1, 0x20), (2, 0x10), (15, 1)] = (0xF0, 0) := by decide

theorem test_A34_A41 : v1vf 0x8126 [(1, 0x05), (2, 0xFF)] = (0x02, 1) ∧
    v1vf 0x8126 [(1, 0x04), (15, 1)] = (0x02, 0) ∧ v1vf 0x812E [(1, 0x81)] = (0x02, 1) ∧
    v1vf 0x812E [(1, 0x40), (15, 1)] = (0x80, 0) := by decide

theorem test_A46_A47 : (after 0xC10F (given { Sample.quiet with rand := some 0xA7 } State.reset)).reg 1 = 0x07 ∧
    (after 0xC100 (given { Sample.quiet with rand := some 0xA7 } (start [(1, 0x55)]))).reg 1 = 0x00 := by decide

/-! ## Address register and memory -/

theorem test_M1_M4b : (after 0xA2F0 State.reset).i = 0x2F0 ∧ (after 0xF11E (start [(1, 1)] 0x0FFF)).i = 0x1000 ∧
    (after 0xF11E (start [(1, 1)] 0xFFFF)).i = 0x0000 := by decide

theorem test_M6_M7 : (after 0xF129 (start [(1, 0x1A)])).i = 0x32 ∧ (after 0xF129 (start [(1, 0xFF)])).i = 0x4B := by
  decide

/-- The cells of memory that differ from the reset contents, from 0x202 on. -/
def stored (s : State) : Memory := s.mem.filter fun cell => cell.1 != 0x200 && cell.1 != 0x201

theorem test_M9_M12 :
    stored (after 0xF033 (start [(0, 0xEA)] 0x300)) = [(0x300, 2), (0x301, 3), (0x302, 4)] ∧
    (let t := after 0xF033 (start [(0, 0x7B)] 0xFFE); (faultOf t, stored t)) =
      ((.halted, .dataAddress, 0x1000), []) := by decide

theorem test_M14 : (let t := after 0xF033 (start [(0, 0x7B)] 0x4F); (faultOf t, stored t, t.byteAt 0x4F)) =
    ((.halted, .fontWrite, 0x4F), [], 0x80) := by decide

theorem test_M17_M21 :
    stored (after 0xF255 (start [(0, 0x11), (1, 0x22), (2, 0x33), (3, 0x44)] 0x400)) =
      [(0x400, 0x11), (0x401, 0x22), (0x402, 0x33)] ∧
    (let t := after 0xF555 (start [(0, 1), (1, 2)] 0x4D); (faultOf t, stored t)) =
      ((.halted, .fontWrite, 0x4D), []) := by decide

theorem test_M23_M24 :
    ((after 0xF265 (State.withBytes (start [(3, 0x99)] 0x400) 0x400 [0x11, 0x22, 0x33, 0x44])).v.toList.take 4 =
      [0x11, 0x22, 0x33, 0x99]) ∧
    (after 0xF465 State.reset).v.toList.take 5 = [0xF0, 0x90, 0x90, 0x90, 0xF0] := by decide

theorem test_M25 :
    (let t := after 0xF165 (State.withBytes (start [(0, 1)] 0xFFF) 0xFFF [0x5A]); (faultOf t, t.reg 0, t.reg 1)) =
      ((.halted, .dataAddress, 0x1000), 1, 0) := by decide

/-- A byte written back to its reset value is no longer listed: equal memories are equal data. -/
theorem test_canonical : ((State.reset.poke 0x300 7).poke 0x300 0).mem = [] ∧
    ((State.reset.poke 0x301 7).poke 0x300 9).mem = [(0x300, 9), (0x301, 7)] := by decide

/-! ## Display -/

theorem test_G1 : (let t := after 0x00E0 { start [(15, 1)] with fb := setPixel clearedFb 31 63 true };
    (t.fb, t.reg 15, t.presented.length)) = (clearedFb, 1, 1) := by decide

theorem test_G6 :
    (let t := after 0xD011 (State.withBytes { start [] 0x300 with fb := State.reset.fb.set 0 0x0F } 0x300 [0x3C]);
      (rowBits t 0, t.reg 15, t.presented.length)) = (0x33, 1, 1) := by decide

set_option maxRecDepth 20000 in
/-- G4: rows 30, 31, 0, 1, 2 and columns 60 to 63, 0 to 3. -/
theorem test_G4 :
    (let t := after 0xD015 (State.withBytes (start [(0, 0x3C), (1, 0x1E), (15, 1)] 0x300) 0x300
        [0xFF, 0xFF, 0xFF, 0xFF, 0xFF]);
      ((List.finRange 32).filter fun r => rowBits t r == 0xF00000000000000F)) = [0, 1, 2, 30, 31] := by decide

theorem test_G10_G13 : (let t := after 0xD010 (start [(15, 1)] 0xFFFF); (t.run, t.reg 15, t.presented.length)) =
      (.running, 0, 1) ∧
    (let t := after 0xD012 (State.withBytes (start [(15, 1)] 0xFFF) 0xFFF [0xFF]);
      (faultOf t, t.fb, t.reg 15, t.presented)) =
      ((.halted, .dataAddress, 0x1000), clearedFb, 1, []) := by decide

theorem test_G11 : (let t := after 0xDF01 (State.withBytes (start [(15, 5), (0, 2)] 0x300) 0x300 [0x80]);
    (rowBits t 2, t.reg 15)) = (0x20, 0) := by decide

/-! ## Keypad and timers -/

theorem test_K1_K3 :
    (after 0xE19E (given { Sample.quiet with keys := 0x0400 } (start [(1, 10)]))).pc = 0x204 ∧
    (after 0xE19E (given { Sample.quiet with keys := 0xFBFF } (start [(1, 10)]))).pc = 0x202 ∧
    (after 0xE1A1 (given { Sample.quiet with keys := 0x0400 } (start [(1, 10)]))).pc = 0x202 ∧
    (after 0xE1A1 (start [(1, 10)])).pc = 0x204 := by decide

theorem test_K6_K7 :
    (let t := after 0xE19E (given { Sample.quiet with keys := 0xFFFF } (start [(1, 0x10)])); (faultOf t, t.pc)) =
      ((.halted, .keyIndex, 0x10), 0x202) ∧
    faultOf (after 0xE1A1 (start [(1, 0xFF)])) = (.halted, .keyIndex, 0xFF) := by decide

/-- The key wait: the event of the executing step is ignored. -/
theorem test_key_wait_starts :
    (let t := after 0xF30A (given { Sample.quiet with keyEvent := some 9 } State.reset);
      (t.run, t.reg 3, t.pc)) = (.awaitingKey, 0, 0x202) := by decide

/-- The key wait ends with the event `7`; `VF` is a destination like any other (K9). -/
theorem test_key_wait_ends :
    nextOf (step
        { State.reset with
          run := .awaitingKey, ir := 0xFF0A, pending := [{ Sample.quiet with keyEvent := some 7 }] }) =
      some { State.reset with
        ir := 0xFF0A, v := State.reset.v.set 15 7, input := { Sample.quiet with keyEvent := some 7 } } := by decide

/-- T1 and T2, at the ends of a tick. -/
theorem test_T1_T2 : (Timer.read ⟨30, 1000⟩ 1 1000, Timer.read ⟨30, 1000⟩ 1 1012, Timer.read ⟨30, 1000⟩ 1 1030,
      Timer.read ⟨30, 4000⟩ 4 4003, Timer.read ⟨30, 4000⟩ 4 4004, Timer.read ⟨30, 4000⟩ 4 5000) =
    (30, 18, 0, 30, 29, 0) := by decide

theorem test_Fx07_Fx15_Fx18 :
    (after 0xF207 (given { Sample.quiet with elapsed := 12 } { State.reset with dt := ⟨30, 0⟩ })).reg 2 = 18 ∧
    (let t := after 0xF115 (given { Sample.quiet with elapsed := 1000 } (start [(1, 0x1E)])); (t.dt, t.st)) =
      (⟨30, 1000⟩, ⟨0, 0⟩) ∧
    (let t := after 0xF218 (given { Sample.quiet with elapsed := 500 } (start [(2, 4)])); (t.dt, t.st)) =
      (⟨0, 0⟩, ⟨4, 500⟩) := by decide

/-! ## Stop request, Halted, end of a program -/

/-- X2, then X3: a Halted core keeps its code. -/
theorem test_X2_X3 :
    nextOf (step (given { Sample.quiet with stopReq := true } State.reset)) =
      some { State.reset with
        run := .halted, fault := .externalStop, faultInfo := 0x200, input := { Sample.quiet with stopReq := true } } ∧
    nextOf (step (given { Sample.quiet with stopReq := true }
        { State.reset with run := .halted, fault := .keyIndex, faultInfo := 0x10 })) =
      some { State.reset with
        run := .halted, fault := .keyIndex, faultInfo := 0x10, input := { Sample.quiet with stopReq := true } } := by
  decide

theorem test_end_of_program :
    (State.withBytes State.reset 0x200 [0x12, 0x00]).finished = true ∧ State.reset.finished = false := by decide

/-! ## Witnesses: a concrete state and operands for the hypotheses of every obligation that has any, one for
each clause, at the bounds of its range -/

/-- The state whose next step executes the word at the last address that can be fetched. -/
def lastWord (hi lo : Byte) : State := State.withBytes { State.reset with pc := 0xFFD } 0xFFD [hi, lo]

theorem lastWord_ready (hi lo : Byte) : (lastWord hi lo).Ready := ⟨rfl, rfl, (by decide : (0xFFD : Nat) < 4094)⟩

theorem witness_DecodeReturnsTheEncodedInstruction :
    (Instr.unrecognised 0xFFFF).wf = true ∧ (Instr.drw 15 15 15).wf = true := by decide

theorem witness_StepRunsTheDecodedInstruction : (lastWord 0xDF 0xE1).Ready ∧
    decode [(lastWord 0xDF 0xE1).byteAt 0xFFD, (lastWord 0xDF 0xE1).byteAt 0xFFE] = .ok (.drw 15 14 1, []) :=
  ⟨lastWord_ready _ _, rfl⟩

theorem witness_IrHoldsTheFetchedWord : (lastWord 0xDF 0xE1).Ready := lastWord_ready _ _

/-- A state that waits for a key, and one that is Halted. -/
def waitingFor (x : Nibble) : State := { State.reset with run := .awaitingKey, ir := 0xF#4 ++ x ++ 0x0A#8 }
def haltedState : State := { State.reset with run := .halted, fault := .keyIndex, faultInfo := 0x10 }

theorem witness_HaltedStepIsInert : haltedState.run = .halted := rfl
theorem witness_HaltedIsAbsorbing : haltedState.run = .halted := rfl

theorem witness_StopRequestHalts :
    (∃ s : State, s.run = .running ∧ s.sample.input.stopReq = true) ∧
    (∃ s : State, s.run = .awaitingKey ∧ s.sample.input.stopReq = true) :=
  ⟨⟨given { Sample.quiet with stopReq := true } State.reset, rfl, rfl⟩,
    ⟨given { Sample.quiet with stopReq := true } (waitingFor 0), rfl, rfl⟩⟩

/-- No event; then the events 0 and 15, for the destinations `V0` and `VF`. -/
theorem witness_KeyWaitStep :
    (let s := waitingFor 3; s.run = .awaitingKey ∧ s.sample.input.stopReq = false ∧ s.sample.input.keyEvent = none) ∧
    (let s := given { Sample.quiet with keyEvent := some 0 } (waitingFor 0);
      s.run = .awaitingKey ∧ s.sample.input.stopReq = false ∧ s.sample.input.keyEvent = some 0 ∧
      (0 : Reg).val = s.ir.toNat / 256 % 16) ∧
    (let s := given { Sample.quiet with keyEvent := some 15 } (waitingFor 15);
      s.run = .awaitingKey ∧ s.sample.input.stopReq = false ∧ s.sample.input.keyEvent = some 15 ∧
      (15 : Reg).val = s.ir.toNat / 256 % 16) := by decide

theorem witness_FetchPastTheLimitFaults : ([4094, 0x10FE, 0xFFFF] : List Word).all (fun a =>
    let s := { State.reset with pc := a }
    s.run == .running && s.sample.input.stopReq == false && decide (4094 ≤ s.pc.toNat)) = true := by decide

/-- `Fx55` of all registers into the last sixteen bytes, where it stands itself. -/
theorem witness_StoreIsSeenByTheNextFetch :
    let s := { State.reset with i := 0xFF0, pc := 0xFF0 }
    s.MemWf ∧ s.Ready ∧ s.i = s.pc ∧ 1 ≤ (15 : Reg).val ∧ Writable s.base ((15 : Reg).val + 1) :=
  ⟨by decide, ⟨rfl, rfl, (by decide : (0xFF0 : Nat) < 4094)⟩, rfl, by decide, by decide⟩

/-- A launch with a full image, for the clauses about the font, the image and the rest. -/
theorem witness_ResetStateOfTheSource : ∃ l : Launch, 79 < 80 ∧ 3583 < l.rom.val.length :=
  ⟨{ Launch.default with rom := ⟨List.replicate 3584 0x12, Nat.le_of_eq List.length_replicate⟩ }, by decide,
    Nat.lt_of_lt_of_eq (Nat.lt_succ_self 3583) List.length_replicate.symm⟩

theorem witness_ResetZeroesTheRest : ∃ l : Launch, l.rom.val.length = 2 ∧ 80 ≤ 80 ∧ 80 < 0x200 ∧
    0x200 + l.rom.val.length ≤ 0x202 :=
  ⟨{ Launch.default with rom := ⟨[0x12, 0x00], by simp⟩ }, by decide⟩

theorem witness_ReturnPopsOrFaults : (atDepth 1).sp.val = (0 : Fin 16).val + 1 ∧
    (atDepth 16).sp.val = (15 : Fin 16).val + 1 ∧ (atDepth 0).sp.val = 0 := by decide

theorem witness_CallPushesOrFaults : (atDepth 0).sp.val = (0 : Fin 16).val ∧
    (atDepth 15).sp.val = (15 : Fin 16).val ∧ (atDepth 16).sp.val = 16 := by decide

theorem witness_ReturnUndoesCall : (atDepth 15).sp.val < 16 ∧ (0 : Fin 16).val < (atDepth 15).sp.val := by decide

theorem witness_StackReversesWhatIsPushed :
    (atDepth 0).sp.val = 0 ∧ (List.replicate 16 (0x202 : Word)).length ≤ 16 ∧ ([] : List Word).length ≤ 16 := by
  decide

theorem witness_UnrecognisedWordIsANoOp :
    (lastWord 0x51 0x21).Ready ∧ isUnrecognised (lastWord 0x51 0x21).nextWord = true :=
  ⟨lastWord_ready _ _, by decide⟩

/-- The sums 255 and 256, either side of the carry, and a destination that is not `VF`. -/
theorem witness_AddSetsCarry : (0 : Reg) ≠ VF ∧
    (let s := start [(0, 0x80), (1, 0x7F)]; (s.reg 0).toNat + (s.reg 1).toNat = 255) ∧
    (let s := start [(0, 0x80), (1, 0x80)]; (s.reg 0).toNat + (s.reg 1).toNat = 256) := by decide

theorem witness_SubtractSetsNoBorrow : (14 : Reg) ≠ VF ∧
    (let s := start [(0, 5), (1, 5)]; (s.reg 0).toNat ≥ (s.reg 1).toNat) ∧
    (let s := start [(0, 4), (1, 5)]; ¬ (s.reg 0).toNat ≥ (s.reg 1).toNat) := by decide

theorem witness_ShiftsByOne : (14 : Reg) ≠ VF := by decide

theorem witness_RandomByteIsMasked :
    (given { Sample.quiet with rand := some 0xA7 } State.reset).sample.input.rand = some 0xA7 ∧
    State.reset.input.rand = none := by decide

theorem witness_StoresDecimalDigits : (let s := start [] 0x50; s.MemWf ∧ Writable s.base 3) ∧
    (let s := start [] 0xFFD; s.MemWf ∧ Writable s.base 3) := by decide

theorem witness_StoresRegisters : (let s := start [] 0x50; s.MemWf ∧ Writable s.base ((0 : Reg).val + 1)) ∧
    (let s := start [] 0xFF0; s.MemWf ∧ Writable s.base ((15 : Reg).val + 1)) := by decide

/-- The font's first and last byte; the last bytes of memory and beyond. -/
theorem witness_StoreFaultsWriteNothing : (start [] 0x00).base < 0x50 ∧ (start [] 0x4F).base < 0x50 ∧
    (let s := start [] 0xFFE; 0x50 ≤ s.base ∧ 0x1000 < s.base + 3) ∧
    (let s := start [] 0xFF1; 0x50 ≤ s.base ∧ 0x1000 < s.base + ((15 : Reg).val + 1)) ∧
    (let s := start [] 0xFFFF; 0x50 ≤ s.base ∧ 0x1000 < s.base + ((0 : Reg).val + 1)) := by decide

theorem witness_LoadsRegisters : Readable (start [] 0x000).base ((0 : Reg).val + 1) ∧
    Readable (start [] 0xFF0).base ((15 : Reg).val + 1) ∧ (3 : Reg) ≤ 3 ∧ (3 : Reg) < 4 := by decide

theorem witness_ReadFaultsChangeNothing : 0x1000 < (start [] 0xFF1).base + ((15 : Reg).val + 1) ∧
    0x1000 < (start [] 0x1000).base + ((0 : Reg).val + 1) ∧
    (0 < 1 ∧ 1 < 16 ∧ 0x1000 < (start [] 0x1000).base + 1) ∧
    (0 < 15 ∧ 15 < 16 ∧ 0x1000 < (start [] 0xFF2).base + 15) := by decide

theorem witness_StoreThenLoadRestores :
    let s := start [] 0xFF0; s.MemWf ∧ Writable s.base ((15 : Reg).val + 1) := by decide

/-- No row, wherever `I` points; fifteen rows that end at the last byte. -/
theorem witness_DrawXorsTheSprite : ((0 : Nibble) = 0 ∨ Readable (start [] 0xFFFF).base (0 : Nibble).toNat) ∧
    Readable (start [] 0xFF1).base (15 : Nibble).toNat := by decide

theorem witness_DrawTwiceRestoresThePicture : (0 : Reg) ≠ VF ∧ (14 : Reg) ≠ VF ∧
    Readable (start [] 0xFF1).base (15 : Nibble).toNat := by decide

theorem witness_KeySkips : ((start [(1, 0)]).reg 1).toNat = (0 : Key).val ∧
    ((start [(1, 15)]).reg 1).toNat = (15 : Key).val := by decide

theorem witness_KeyIndexAboveFifteenFaults : 15 < ((start [(1, 16)]).reg 1).toNat ∧
    15 < ((start [(1, 255)]).reg 1).toNat := by decide

theorem witness_WaitDeliversTheKey : (lastWord 0xFF 0x0A).Ready ∧
    decodeWord (lastWord 0xFF 0x0A).nextWord = .ldVxK 15 ∧
    Sample.quiet.stopReq = false ∧ Sample.quiet.keyEvent = none ∧
    (let event := { Sample.quiet with keyEvent := some 7 }; event.stopReq = false ∧ event.keyEvent = some (7 : Key)) :=
  ⟨lastWord_ready _ _, by decide⟩

/-- Before one tick, and after all of them. -/
theorem witness_TimerRunsDownAndStays : (0 < 4 ∧ 4000 ≤ 4003 ∧ 4003 ≤ 4003 ∧ 4003 < 4000 + 4) ∧
    (0 < 4 ∧ 4000 ≤ 4120 ∧ 4120 ≤ 5000 ∧ 4000 + (30 : Byte).toNat * 4 ≤ 4120) := by decide

theorem witness_TimerRefinesTheDownCounter : 0 < (1 : Nat) := by decide

theorem witness_OnlyListedInstructionsReadInputs :
    readsInputs (.ldVxK 3) = false ∧ exec (.ldVxK 3) State.reset = .next (State.reset.setRun .awaitingKey) :=
  ⟨rfl, rfl⟩

theorem witness_FaultsArePrecise : State.reset.run ≠ .halted ∧
    exec .ret State.reset = .next (State.reset.raise ⟨.stackUnderflow, 0⟩) ∧
    (State.reset.raise ⟨.stackUnderflow, 0⟩).run = .halted := ⟨by decide, rfl, rfl⟩

theorem witness_OnlyWaitForKeySuspends : State.reset.run = .running ∧
    exec (.ldVxK 3) State.reset = .next (State.reset.setRun .awaitingKey) ∧
    exec (.jp 0x200) State.reset = .next (State.reset.setPc 0x200) := ⟨rfl, rfl, rfl⟩

theorem witness_NoStepChangesTheFont : State.reset.MemWf ∧ (lastWord 0x12 0x00).MemWf ∧ 0x4F < 0x50 := by decide

/-- The invariant holds in a state that is far from reset: full stack, waiting, timers armed, `PC` at its
bound. -/
theorem witness_EveryStepKeepsTheInvariant : Inv
    { waitingFor 15 with
      sp := 16, stack := Vector.replicate 16 0xFFF, pc := 0x10FE, now := 9, dt := ⟨255, 9⟩, st := ⟨1, 0⟩ } where
  memWf := by decide
  font a h := by simp [State.byteAt, waitingFor, State.reset, State.resetWith, resetByte, h]
  dtArmed := by decide
  stArmed := by decide
  pcBound := by decide
  stackBound := by decide
  haltedIff := by decide
  noInfo := by decide
  waiting _ := ⟨15, by decide⟩

end Sys2Proof.Tests
end

/-! PROOF. The key-wait step (40_step_cycle.md R123): the frames of the two writes it makes, what waiting
does with and without an event, and the step of a waiting core. -/

namespace Sys2Proof.Machine

section
variable (s : State)

/-! ### The frames of a register write and of a change of run state -/

theorem setReg_unchanged (k : Reg) (b : Byte) : UnchangedExcept [.v] s (s.setReg k b) := by
  intro p hp
  cases p with
  | v => simp at hp
  | _ => simp [Part.Same]

theorem setRun_unchanged (r : RunState) : UnchangedExcept [.control] s (s.setRun r) := by
  intro p hp
  cases p with
  | control => simp at hp
  | _ => simp [Part.Same]

theorem setReg_regsExcept (k : Reg) (b : Byte) : RegsExcept [k] s (s.setReg k b) := by
  intro j hj
  rw [setReg_reg, if_neg (by simpa using hj)]

/-! ### The key wait -/

/-- The destination register is `IR[11:8]` (R91, R123). -/
theorem xReg_val (w : Word) : (xReg w).val = w.toNat / 256 % 16 := xOf_toNat w

theorem keyWait_of_noEvent (h : s.input.keyEvent = none) : s.keyWait = s := by
  rw [State.keyWait, h]

theorem keyWait_of_event {k : Key} (h : s.input.keyEvent = some k) :
    s.keyWait = (s.setReg (xReg s.ir) (BitVec.ofNat 8 k.val)).setRun .running := by
  rw [State.keyWait, h]

/-- Waiting, with an event or without, writes registers and the run state alone. -/
theorem keyWait_unchanged : UnchangedExcept [.v, .control] s s.keyWait := by
  cases h : s.input.keyEvent with
  | none => rw [keyWait_of_noEvent s h]; exact .refl _ s
  | some k =>
    rw [keyWait_of_event s h]
    exact ((setReg_unchanged s _ _).mono (by simp)).trans ((setRun_unchanged _ _).mono (by simp))

theorem step_of_awaitingKey (hrun : s.run = .awaitingKey) (hstop : s.sample.input.stopReq = false) :
    step s = .next s.sample.keyWait := by
  obtain ⟨hr, -⟩ | ⟨-, hs, -⟩ | ⟨-, -, h⟩ | ⟨hr, -⟩ | ⟨hr, -⟩ := step_cases s
  case inr.inr.inl => exact h
  case inr.inl => simp [hstop] at hs
  all_goals simp [hrun] at hr

end

/-- Settles O10, by the two answers of the key wait. -/
theorem keyWaitStep : Obligations.KeyWaitStep := by
  intro s hrun hstop
  have hstep := step_of_awaitingKey s hrun hstop
  refine ⟨fun hnone => by rw [hstep, keyWait_of_noEvent _ hnone], fun k hk => ?_⟩
  have hwait := keyWait_of_event _ hk
  refine ⟨s.sample.keyWait, hstep, fun r hr => ?_, by simp [hwait], by simp [hwait], by simp [hwait],
    keyWait_unchanged _⟩
  obtain rfl : r = xReg s.sample.ir := Fin.ext (by rw [xReg_val, sample_ir, hr])
  constructor
  · have := k.isLt
    rw [hwait, setRun_reg, setReg_reg, if_pos rfl, BitVec.toNat_ofNat, Nat.mod_eq_of_lt (by omega)]
  · intro j hj
    rw [hwait, setRun_reg, setReg_regsExcept _ _ _ j hj, sample_reg]

end Sys2Proof.Machine

/-! PROOF. The skips on an immediate operand (41_flow.md R143, R144): their words, and what a conditional
skip does to `PC` and to the rest. -/

namespace Sys2Proof

/-! ### The words of 3xnn and 4xnn -/

@[simp] theorem xReg_xnn (f : Nibble) (x : Reg) (nn : Byte) : xReg (f ++ regField x ++ nn) = x := by
  rw [xReg, xOf_xnn, regField_toFin]

theorem decodeWord_seImm (x : Reg) (nn : Byte) : decodeWord (0x3#4 ++ regField x ++ nn) = .seImm x nn := by
  simp [decodeWord]

theorem decodeWord_sneImm (x : Reg) (nn : Byte) : decodeWord (0x4#4 ++ regField x ++ nn) = .sneImm x nn := by
  simp [decodeWord]

end Sys2Proof

namespace Sys2Proof.Machine

section
variable (s : State)

/-! ### A conditional skip -/

theorem setPc_unchanged (a : Word) : UnchangedExcept [.pc] s (s.setPc a) := by
  intro p hp
  cases p with
  | pc => simp at hp
  | _ => simp [Part.Same]

theorem skipIf_unchanged (condition : Bool) : UnchangedExcept [.pc] s (s.skipIf condition) := by
  cases condition with
  | false => exact .refl _ s
  | true => exact setPc_unchanged s (s.pc + 2)

/-- A skip moves `PC` by 2, modulo 65536 (R149). -/
theorem skipIf_pc_toNat (condition : Bool) :
    (s.skipIf condition).pc.toNat = if condition = true then (s.pc.toNat + 2) % 65536 else s.pc.toNat := by
  cases condition with
  | false => rfl
  | true => exact BitVec.toNat_add s.pc 2

/-! ### The two instructions -/

theorem exec_seImm (x : Reg) (nn : Byte) : exec (.seImm x nn) s = .next (s.skipIf (s.reg x == nn)) := rfl

theorem exec_sneImm (x : Reg) (nn : Byte) : exec (.sneImm x nn) s = .next (s.skipIf (s.reg x != nn)) := rfl

end

/-- Settles O22: each word decodes to its skip, and each skip is `State.skipIf` on its own comparison. -/
theorem skipsOnAnImmediate : Obligations.SkipsOnAnImmediate := by
  intro s x nn
  refine ⟨decodeWord_seImm x nn, decodeWord_sneImm x nn, ?eq, ?ne⟩
  case eq =>
    refine ⟨_, exec_seImm s x nn, skipIf_unchanged s _, ?_⟩
    simp only [skipIf_pc_toNat, beq_iff_eq]
  case ne =>
    refine ⟨_, exec_sneImm s x nn, skipIf_unchanged s _, ?_⟩
    simp only [skipIf_pc_toNat, bne_iff_ne]

end Sys2Proof.Machine

/-! PROOF. Loads, the immediate addition and the bitwise operations (42_alu.md R160 to R165): their words,
and what the one register write of each leaves unchanged. -/

namespace Sys2Proof

/-! ### The words of 6xnn, 7xnn and of family 8 -/

@[simp] theorem xReg_xyn (f : Nibble) (x : Reg) (y n : Nibble) : xReg (f ++ regField x ++ y ++ n) = x := by
  rw [xReg, xOf_xyn, regField_toFin]

@[simp] theorem yReg_xyn (f x : Nibble) (y : Reg) (n : Nibble) : yReg (f ++ x ++ regField y ++ n) = y := by
  rw [yReg, yOf_xyn, regField_toFin]

theorem decodeWord_ldImm (x : Reg) (nn : Byte) : decodeWord (0x6#4 ++ regField x ++ nn) = .ldImm x nn := by
  simp [decodeWord]

theorem decodeWord_addImm (x : Reg) (nn : Byte) : decodeWord (0x7#4 ++ regField x ++ nn) = .addImm x nn := by
  simp [decodeWord]

/-- Family 8 is told apart by the low nibble alone (R94). -/
theorem decodeWord_fam8 (x y n : Nibble) :
    decodeWord (0x8#4 ++ x ++ y ++ n) = decodeFam8 (0x8#4 ++ x ++ y ++ n) := by
  simp [decodeWord]

theorem decodeWord_ldReg (x y : Reg) :
    decodeWord (0x8#4 ++ regField x ++ regField y ++ 0x0#4) = .ldReg x y := by
  simp [decodeWord_fam8, decodeFam8]

theorem decodeWord_or (x y : Reg) : decodeWord (0x8#4 ++ regField x ++ regField y ++ 0x1#4) = .or x y := by
  simp [decodeWord_fam8, decodeFam8]

theorem decodeWord_and (x y : Reg) : decodeWord (0x8#4 ++ regField x ++ regField y ++ 0x2#4) = .and x y := by
  simp [decodeWord_fam8, decodeFam8]

theorem decodeWord_xor (x y : Reg) : decodeWord (0x8#4 ++ regField x ++ regField y ++ 0x3#4) = .xor x y := by
  simp [decodeWord_fam8, decodeFam8]

end Sys2Proof

namespace Sys2Proof.Machine

section
variable (s : State)

theorem setReg_reg_same (k : Reg) (b : Byte) : (s.setReg k b).reg k = b := by
  rw [setReg_reg, if_pos rfl]

/-! ### Each instruction is one register write -/

theorem exec_ldImm (x : Reg) (nn : Byte) : exec (.ldImm x nn) s = .next (s.setReg x nn) := rfl

theorem exec_ldReg (x y : Reg) : exec (.ldReg x y) s = .next (s.setReg x (s.reg y)) := rfl

theorem exec_addImm (x : Reg) (nn : Byte) : exec (.addImm x nn) s = .next (s.setReg x (s.reg x + nn)) := rfl

theorem exec_or (x y : Reg) : exec (.or x y) s = .next (s.setReg x (s.reg x ||| s.reg y)) := rfl

theorem exec_and (x y : Reg) : exec (.and x y) s = .next (s.setReg x (s.reg x &&& s.reg y)) := rfl

theorem exec_xor (x y : Reg) : exec (.xor x y) s = .next (s.setReg x (s.reg x ^^^ s.reg y)) := rfl

end

/-- Settles O25: each word decodes to its load, and each load is one write of the value loaded. -/
theorem loadAndMove : Obligations.LoadAndMove := by
  intro s x y nn
  refine ⟨decodeWord_ldImm x nn, decodeWord_ldReg x y, ?imm, ?move⟩
  case imm =>
    exact ⟨_, exec_ldImm s x nn, setReg_reg_same s x nn, setReg_regsExcept s x nn, setReg_unchanged s x nn⟩
  case move =>
    exact ⟨_, exec_ldReg s x y, setReg_reg_same s x _, setReg_regsExcept s x _, setReg_unchanged s x _⟩

/-- Settles O26: the one register written takes the byte sum, which is the sum modulo 256. -/
theorem addImmediateWritesNoFlag : Obligations.AddImmediateWritesNoFlag := by
  intro s x nn
  refine ⟨decodeWord_addImm x nn, _, exec_addImm s x nn, ?_, setReg_regsExcept s x _, setReg_unchanged s x _⟩
  rw [setReg_reg_same]
  exact BitVec.toNat_add (s.reg x) nn

/-- Settles O27: the one register written takes the byte OR, AND or XOR, read bit by bit. -/
theorem logicIsBitwise : Obligations.LogicIsBitwise := by
  intro s x y
  refine ⟨decodeWord_or x y, decodeWord_and x y, decodeWord_xor x y, ?or, ?and, ?xor⟩
  case or =>
    refine ⟨_, exec_or s x y, setReg_regsExcept s x _, setReg_unchanged s x _, fun b => ?_⟩
    rw [setReg_reg_same, BitVec.getLsbD_or]
  case and =>
    refine ⟨_, exec_and s x y, setReg_regsExcept s x _, setReg_unchanged s x _, fun b => ?_⟩
    rw [setReg_reg_same, BitVec.getLsbD_and]
  case xor =>
    refine ⟨_, exec_xor s x y, setReg_regsExcept s x _, setReg_unchanged s x _, fun b => ?_⟩
    rw [setReg_reg_same, BitVec.getLsbD_xor]

end Sys2Proof.Machine

/-! PROOF. The writes of the address register (43_index_memory.md R190 to R192): their words, and what a
write of `I` leaves unchanged. -/

namespace Sys2Proof

/-! ### The words of Annn and of family F -/

theorem decodeWord_ldI (nnn : Addr12) : decodeWord (0xA#4 ++ nnn) = .ldI nnn := by
  simp [decodeWord]

/-- Family F is told apart by the low byte alone (R94). -/
theorem decodeWord_famF (x : Nibble) (nn : Byte) :
    decodeWord (0xF#4 ++ x ++ nn) = decodeFamF (0xF#4 ++ x ++ nn) := by
  simp [decodeWord]

theorem decodeWord_addI (x : Reg) : decodeWord (0xF#4 ++ regField x ++ 0x1E#8) = .addI x := by
  simp [decodeWord_famF, decodeFamF]

theorem decodeWord_ldF (x : Reg) : decodeWord (0xF#4 ++ regField x ++ 0x29#8) = .ldF x := by
  simp [decodeWord_famF, decodeFamF]

end Sys2Proof

namespace Sys2Proof.Machine

section
variable (s : State)

/-! ### Each instruction is one write of `I` -/

theorem setI_unchanged (a : Word) : UnchangedExcept [.i] s (s.setI a) := by
  intro p hp
  cases p with
  | i => simp at hp
  | _ => simp [Part.Same]

theorem exec_ldI (nnn : Addr12) : exec (.ldI nnn) s = .next (s.setI (addrOf nnn)) := rfl

theorem exec_addI (x : Reg) : exec (.addI x) s = .next (s.setI (s.i + widen (s.reg x))) := rfl

theorem exec_ldF (x : Reg) : exec (.ldF x) s = .next (s.setI (glyphAddr (s.reg x))) := rfl

end

/-- Settles O32: each word decodes to its instruction, and each instruction is one write of `I`: the
zero-extended address, the word sum, or the glyph's address. -/
theorem addressRegisterIsSet : Obligations.AddressRegisterIsSet := by
  intro s x nnn
  refine ⟨decodeWord_ldI nnn, decodeWord_addI x, decodeWord_ldF x, ?load, ?add, ?glyph⟩
  case load => exact ⟨_, exec_ldI s nnn, addrOf_toNat nnn, setI_unchanged s _⟩
  case add =>
    refine ⟨_, exec_addI s x, ?_, setI_unchanged s _⟩
    rw [setI_i, BitVec.toNat_add, widen_toNat]
  case glyph => exact ⟨_, exec_ldF s x, glyphAddr_toNat (s.reg x), setI_unchanged s _⟩

end Sys2Proof.Machine

/-! PROOF. The clear (44_display.md R210): its word, and the frames of its two writes, the picture and the
`present` event. -/

namespace Sys2Proof

theorem decodeWord_cls : decodeWord 0x00E0 = .cls := by decide

end Sys2Proof

namespace Sys2Proof.Machine

section
variable (s : State)

theorem setFb_unchanged (picture : Framebuffer) : UnchangedExcept [.fb] s (s.setFb picture) := by
  intro p hp
  cases p with
  | fb => simp at hp
  | _ => simp [Part.Same]

theorem present_unchanged : UnchangedExcept [.presented] s s.present := by
  intro p hp
  cases p with
  | presented => simp at hp
  | _ => simp [Part.Same]

/-- Showing a new picture touches the framebuffer and the list of events alone. -/
theorem setFb_present_unchanged (picture : Framebuffer) :
    UnchangedExcept [.fb, .presented] s (s.setFb picture).present :=
  ((setFb_unchanged s picture).mono (by simp)).trans ((present_unchanged _).mono (by simp))

/-- The event that shows a new picture carries that picture, after the events already emitted. -/
theorem setFb_present_presented (picture : Framebuffer) :
    (s.setFb picture).present.presented = s.presented ++ [picture] := by
  rw [present_presented, setFb_presented, setFb_fb]

theorem exec_cls : exec .cls s = .next (s.setFb clearedFb).present := rfl

end

/-- Settles O39: the word decodes to the clear, and the clear shows the picture with every pixel off. -/
theorem clearScreen : Obligations.ClearScreen := by
  intro s
  exact ⟨decodeWord_cls, _, exec_cls s, clearedFb_pixel, setFb_present_presented s clearedFb,
    setFb_present_unchanged s clearedFb⟩

end Sys2Proof.Machine

/-! PROOF. The timers armed (45_keypad_timers.md R234, R235): the two words, and what each arming leaves
unchanged. -/

namespace Sys2Proof

theorem decodeWord_ldDtVx (x : Reg) : decodeWord (0xF#4 ++ regField x ++ 0x15#8) = .ldDtVx x := by
  simp [decodeWord_famF, decodeFamF]

theorem decodeWord_ldStVx (x : Reg) : decodeWord (0xF#4 ++ regField x ++ 0x18#8) = .ldStVx x := by
  simp [decodeWord_famF, decodeFamF]

end Sys2Proof

namespace Sys2Proof.Machine

section
variable (s : State)

/-! ### Each instruction is one arming -/

theorem armDt_unchanged (b : Byte) : UnchangedExcept [.dt] s (s.armDt b) := by
  intro p hp
  cases p with
  | dt => simp at hp
  | _ => simp [Part.Same]

theorem armSt_unchanged (b : Byte) : UnchangedExcept [.st] s (s.armSt b) := by
  intro p hp
  cases p with
  | st => simp at hp
  | _ => simp [Part.Same]

theorem exec_ldDtVx (x : Reg) : exec (.ldDtVx x) s = .next (s.armDt (s.reg x)) := rfl

theorem exec_ldStVx (x : Reg) : exec (.ldStVx x) s = .next (s.armSt (s.reg x)) := rfl

end

/-- Settles O48: each word decodes to its instruction, and each instruction arms its own timer, whose pair
becomes `Vx` and the current time. -/
theorem armsOneTimer : Obligations.ArmsOneTimer := by
  intro s x
  refine ⟨decodeWord_ldDtVx x, decodeWord_ldStVx x, ?delay, ?sound⟩
  case delay =>
    have hdt := armDt_dt s (s.reg x)
    exact ⟨_, exec_ldDtVx s x, congrArg Timer.value hdt, congrArg Timer.armedAt hdt, armDt_unchanged s _⟩
  case sound =>
    have hst := armSt_st s (s.reg x)
    exact ⟨_, exec_ldStVx s x, congrArg Timer.value hst, congrArg Timer.armedAt hst, armSt_unchanged s _⟩

end Sys2Proof.Machine

/-! PROOF. Decode and encode (30_encoding.md R90 to R96): the word of each remaining row, the inverse pair of
decoder and encoder, and the decoder against the table of R95 and the list of R96. -/

namespace Sys2Proof

/-! ### The words of the rows that the parts above do not name -/

theorem decodeWord_ret : decodeWord 0x00EE = .ret := by decide

theorem decodeWord_jp (nnn : Addr12) : decodeWord (0x1#4 ++ nnn) = .jp nnn := by
  simp [decodeWord]

theorem decodeWord_call (nnn : Addr12) : decodeWord (0x2#4 ++ nnn) = .call nnn := by
  simp [decodeWord]

theorem decodeWord_jpV0 (nnn : Addr12) : decodeWord (0xB#4 ++ nnn) = .jpV0 nnn := by
  simp [decodeWord]

theorem decodeWord_seReg (x y : Reg) :
    decodeWord (0x5#4 ++ regField x ++ regField y ++ 0x0#4) = .seReg x y := by
  simp [decodeWord]

theorem decodeWord_sneReg (x y : Reg) :
    decodeWord (0x9#4 ++ regField x ++ regField y ++ 0x0#4) = .sneReg x y := by
  simp [decodeWord]

theorem decodeWord_addReg (x y : Reg) :
    decodeWord (0x8#4 ++ regField x ++ regField y ++ 0x4#4) = .addReg x y := by
  simp [decodeWord_fam8, decodeFam8]

theorem decodeWord_sub (x y : Reg) : decodeWord (0x8#4 ++ regField x ++ regField y ++ 0x5#4) = .sub x y := by
  simp [decodeWord_fam8, decodeFam8]

theorem decodeWord_shr (x y : Reg) : decodeWord (0x8#4 ++ regField x ++ regField y ++ 0x6#4) = .shr x y := by
  simp [decodeWord_fam8, decodeFam8]

theorem decodeWord_subn (x y : Reg) : decodeWord (0x8#4 ++ regField x ++ regField y ++ 0x7#4) = .subn x y := by
  simp [decodeWord_fam8, decodeFam8]

theorem decodeWord_shl (x y : Reg) : decodeWord (0x8#4 ++ regField x ++ regField y ++ 0xE#4) = .shl x y := by
  simp [decodeWord_fam8, decodeFam8]

theorem decodeWord_rnd (x : Reg) (nn : Byte) : decodeWord (0xC#4 ++ regField x ++ nn) = .rnd x nn := by
  simp [decodeWord]

theorem decodeWord_drw (x y : Reg) (n : Nibble) :
    decodeWord (0xD#4 ++ regField x ++ regField y ++ n) = .drw x y n := by
  simp [decodeWord]

theorem decodeWord_skp (x : Reg) : decodeWord (0xE#4 ++ regField x ++ 0x9E#8) = .skp x := by
  simp [decodeWord, decodeFamE]

theorem decodeWord_sknp (x : Reg) : decodeWord (0xE#4 ++ regField x ++ 0xA1#8) = .sknp x := by
  simp [decodeWord, decodeFamE]

theorem decodeWord_ldVxDt (x : Reg) : decodeWord (0xF#4 ++ regField x ++ 0x07#8) = .ldVxDt x := by
  simp [decodeWord_famF, decodeFamF]

theorem decodeWord_ldVxK (x : Reg) : decodeWord (0xF#4 ++ regField x ++ 0x0A#8) = .ldVxK x := by
  simp [decodeWord_famF, decodeFamF]

theorem decodeWord_ldB (x : Reg) : decodeWord (0xF#4 ++ regField x ++ 0x33#8) = .ldB x := by
  simp [decodeWord_famF, decodeFamF]

theorem decodeWord_ldMemVx (x : Reg) : decodeWord (0xF#4 ++ regField x ++ 0x55#8) = .ldMemVx x := by
  simp [decodeWord_famF, decodeFamF]

theorem decodeWord_ldVxMem (x : Reg) : decodeWord (0xF#4 ++ regField x ++ 0x65#8) = .ldVxMem x := by
  simp [decodeWord_famF, decodeFamF]

/-! ### The list of R96 by the fields of the word -/

/-- The list of R96, read off the fields instead of the number of the word. -/
theorem isUnrecognised_iff (w : Word) : isUnrecognised w = true ↔
    (famOf w = 0x0#4 ∧ ¬ (xOf w = 0x0#4 ∧ (nnOf w = 0xE0#8 ∨ nnOf w = 0xEE#8))) ∨
    (famOf w = 0x5#4 ∧ nOf w ≠ 0x0#4) ∨
    (famOf w = 0x8#4 ∧ nOf w ∈ [0x8#4, 0x9#4, 0xA#4, 0xB#4, 0xC#4, 0xD#4, 0xF#4]) ∨
    (famOf w = 0x9#4 ∧ nOf w ≠ 0x0#4) ∨
    (famOf w = 0xE#4 ∧ nnOf w ≠ 0x9E#8 ∧ nnOf w ≠ 0xA1#8) ∨
    (famOf w = 0xF#4 ∧
      nnOf w ∉ [0x07#8, 0x0A#8, 0x15#8, 0x18#8, 0x1E#8, 0x29#8, 0x33#8, 0x55#8, 0x65#8]) := by
  have hnnn : w.toNat % 4096 = (xOf w).toNat * 256 + (nnOf w).toNat := by
    rw [xOf_toNat, nnOf_toNat]; omega
  have hnn := (nnOf w).isLt
  simp only [isUnrecognised, hnnn, ← famOf_toNat, ← nOf_toNat, ← nnOf_toNat, Bool.or_eq_true, or_assoc]
  refine or_congr ?_ (or_congr ?_ (or_congr ?_ (or_congr ?_ (or_congr ?_ ?_))))
  · simp [← BitVec.toNat_inj, and_assoc]
    omega
  all_goals simp [← BitVec.toNat_inj, and_assoc]

/-- The decoder finds every word of the list unrecognised. -/
theorem decodeWord_of_isUnrecognised {w : Word} (h : isUnrecognised w = true) :
    decodeWord w = .unrecognised w := by
  rcases (isUnrecognised_iff w).1 h with ⟨hf, hd⟩ | ⟨hf, hd⟩ | ⟨hf, hd⟩ | ⟨hf, hd⟩ | ⟨hf, hd⟩ | ⟨hf, hd⟩
  · simp only [decodeWord, hf, decodeFam0]
    split <;> simp_all
  · simp [decodeWord, hf, hd]
  · simp only [decodeWord, hf, decodeFam8]
    split <;> simp_all
  · simp [decodeWord, hf, hd]
  · simp only [decodeWord, hf, decodeFamE]
    split <;> simp_all
  · simp only [decodeWord, hf, decodeFamF]
    split <;> simp_all

/-! ### Decode after encode -/

/-- The decoder takes every well-formed instruction back from its word (R94, R96). -/
theorem decodeWord_encode {i : Instr} (h : i.wf = true) : decodeWord (encode i) = i := by
  cases i with
  | cls => exact decodeWord_cls
  | ret => exact decodeWord_ret
  | jp nnn => exact decodeWord_jp nnn
  | call nnn => exact decodeWord_call nnn
  | seImm x nn => exact decodeWord_seImm x nn
  | sneImm x nn => exact decodeWord_sneImm x nn
  | seReg x y => exact decodeWord_seReg x y
  | ldImm x nn => exact decodeWord_ldImm x nn
  | addImm x nn => exact decodeWord_addImm x nn
  | ldReg x y => exact decodeWord_ldReg x y
  | or x y => exact decodeWord_or x y
  | and x y => exact decodeWord_and x y
  | xor x y => exact decodeWord_xor x y
  | addReg x y => exact decodeWord_addReg x y
  | sub x y => exact decodeWord_sub x y
  | shr x y => exact decodeWord_shr x y
  | subn x y => exact decodeWord_subn x y
  | shl x y => exact decodeWord_shl x y
  | sneReg x y => exact decodeWord_sneReg x y
  | ldI nnn => exact decodeWord_ldI nnn
  | jpV0 nnn => exact decodeWord_jpV0 nnn
  | rnd x nn => exact decodeWord_rnd x nn
  | drw x y n => exact decodeWord_drw x y n
  | skp x => exact decodeWord_skp x
  | sknp x => exact decodeWord_sknp x
  | ldVxDt x => exact decodeWord_ldVxDt x
  | ldVxK x => exact decodeWord_ldVxK x
  | ldDtVx x => exact decodeWord_ldDtVx x
  | ldStVx x => exact decodeWord_ldStVx x
  | addI x => exact decodeWord_addI x
  | ldF x => exact decodeWord_ldF x
  | ldB x => exact decodeWord_ldB x
  | ldMemVx x => exact decodeWord_ldMemVx x
  | ldVxMem x => exact decodeWord_ldVxMem x
  | unrecognised w => exact decodeWord_of_isUnrecognised h

/-- Settles O1: the two encoded bytes are the word, and the decoder takes the word back. -/
theorem decodeReturnsTheEncodedInstruction : Obligations.DecodeReturnsTheEncodedInstruction := by
  intro i rest h
  show Except.ok (decodeWord (_ ++ _), rest) = .ok (i, rest)
  rw [word_of_bytes, decodeWord_encode h]

/-! ### Encode after decode -/

/-- A word is restored by an instruction that is well-formed and encodes to it. -/
def Restores (w : Word) (i : Instr) : Prop := i.wf = true ∧ encode i = w

theorem restores_unrecognised {w : Word} (h : isUnrecognised w = true) : Restores w (.unrecognised w) := ⟨h, rfl⟩

/-- The low nibbles of family 8 that no row of R95 has. -/
theorem mem_unusedFam8 : ∀ n : Nibble, n ∉ [0x0#4, 0x1#4, 0x2#4, 0x3#4, 0x4#4, 0x5#4, 0x6#4, 0x7#4, 0xE#4] →
    n ∈ [0x8#4, 0x9#4, 0xA#4, 0xB#4, 0xC#4, 0xD#4, 0xF#4] := by
  decide

section
variable {w : Word} {f : Nibble} (hf : famOf w = f)
include hf

theorem word_of_fam_nnn : f ++ nnnOf w = w := hf ▸ word_eq_nnn w

theorem word_of_fam_xnn : f ++ xOf w ++ nnOf w = w := hf ▸ word_eq_xnn w

theorem word_of_fam_xyn : f ++ xOf w ++ yOf w ++ nOf w = w := hf ▸ word_eq_xyn w

theorem word_of_fam_nn {nn : Byte} (hnn : nnOf w = nn) : f ++ xOf w ++ nn = w := hnn ▸ word_of_fam_xnn hf

theorem word_of_fam_n {n : Nibble} (hn : nOf w = n) : f ++ xOf w ++ yOf w ++ n = w := hn ▸ word_of_fam_xyn hf

end

theorem restores_decodeFam0 {w : Word} (hf : famOf w = 0x0#4) : Restores w (decodeFam0 w) := by
  unfold decodeFam0
  split
  case h_3 => exact restores_unrecognised ((isUnrecognised_iff w).2 (.inl ⟨hf, by simp_all⟩))
  all_goals
    next hx hnn =>
    have hw := word_of_fam_nn hf hnn
    rw [literalDigit_eq, beq_iff_eq] at hx
    rw [hx] at hw
    exact ⟨rfl, hw⟩

theorem restores_decodeFam8 {w : Word} (hf : famOf w = 0x8#4) : Restores w (decodeFam8 w) := by
  unfold decodeFam8
  split
  case h_10 =>
    have hn := mem_unusedFam8 (nOf w) (by simp_all)
    exact restores_unrecognised ((isUnrecognised_iff w).2 (.inr (.inr (.inl ⟨hf, hn⟩))))
  all_goals next hn => exact ⟨rfl, word_of_fam_n hf hn⟩

theorem restores_decodeFamE {w : Word} (hf : famOf w = 0xE#4) : Restores w (decodeFamE w) := by
  unfold decodeFamE
  split
  case h_3 => exact restores_unrecognised ((isUnrecognised_iff w).2 (by simp_all))
  all_goals next hnn => exact ⟨rfl, word_of_fam_nn hf hnn⟩

theorem restores_decodeFamF {w : Word} (hf : famOf w = 0xF#4) : Restores w (decodeFamF w) := by
  unfold decodeFamF
  split
  case h_10 => exact restores_unrecognised ((isUnrecognised_iff w).2 (by simp_all))
  all_goals next hnn => exact ⟨rfl, word_of_fam_nn hf hnn⟩

/-- Families 5 and 9: the low nibble must be 0 (R95, D9). -/
theorem restores_ite_literalDigit {w : Word} {i : Instr} (hzero : nOf w = 0x0#4 → Restores w i)
    (hother : nOf w ≠ 0x0#4 → isUnrecognised w = true) :
    Restores w (if literalDigit (nOf w) 0x0 then i else .unrecognised w) := by
  by_cases hn : nOf w = 0x0#4
  · rw [if_pos (by simp [hn])]
    exact hzero hn
  · rw [if_neg (by simpa using hn)]
    exact restores_unrecognised (hother hn)

/-- The family that is left when no other one matches. -/
theorem fam_last : ∀ f : Nibble, f ∉ [0x0#4, 0x1#4, 0x2#4, 0x3#4, 0x4#4, 0x5#4, 0x6#4, 0x7#4, 0x8#4, 0x9#4,
    0xA#4, 0xB#4, 0xC#4, 0xD#4, 0xE#4] → f = 0xF#4 := by
  decide

/-- Decoding loses no bit of a word, whichever family it is of (R96). -/
theorem restores_decodeWord (w : Word) : Restores w (decodeWord w) := by
  unfold decodeWord
  split
  case h_1 hf => exact restores_decodeFam0 hf
  case h_9 hf => exact restores_decodeFam8 hf
  case h_15 hf => exact restores_decodeFamE hf
  case h_16 => exact restores_decodeFamF (fam_last _ (by simp_all))
  case h_2 hf | h_3 hf | h_11 hf | h_12 hf => exact ⟨rfl, word_of_fam_nnn hf⟩
  case h_4 hf | h_5 hf | h_7 hf | h_8 hf | h_13 hf => exact ⟨rfl, word_of_fam_xnn hf⟩
  case h_14 hf => exact ⟨rfl, word_of_fam_xyn hf⟩
  case h_6 hf | h_10 hf =>
    exact restores_ite_literalDigit (fun hn => ⟨rfl, word_of_fam_n hf hn⟩)
      fun hn => (isUnrecognised_iff w).2 (by simp [hf, hn])

/-- Settles O2: every word is restored by what it decodes to. -/
theorem encodeRestoresEveryDecodedWord : Obligations.EncodeRestoresEveryDecodedWord := restores_decodeWord

/-! ### The table of R95 -/

theorem byte_and_ones (a : Byte) : a &&& 0xFF#8 = a := BitVec.and_allOnes

/-- A mask acts on each field on its own. -/
theorem fields_of_selects {r : Row} {w : Word} (h : r.selects w = true) :
    famOf w &&& famOf r.mask = famOf r.pattern ∧ xOf w &&& xOf r.mask = xOf r.pattern ∧
    nOf w &&& nOf r.mask = nOf r.pattern ∧ nnOf w &&& nnOf r.mask = nnOf r.pattern := by
  rw [Row.selects, beq_iff_eq] at h
  simp only [famOf, xOf, nOf, nnOf, ← BitVec.extractLsb'_and, h, and_self]

/-- A word that a row selects decodes to that row's instruction (R95): the fields that the mask keeps are the
row's, and they alone pick the decoder's branch. -/
theorem mnemonic_of_selects {r : Row} (hr : r ∈ opcodeTable) {w : Word} (h : r.selects w = true) :
    (decodeWord w).mnemonic = r.mnemonic := by
  obtain ⟨hf, hx, hn, hnn⟩ := fields_of_selects h
  simp only [decodeWord, decodeFam0, decodeFam8, decodeFamE, decodeFamF]
  generalize famOf w = f, xOf w = x, nOf w = n, nnOf w = nn at *
  fin_cases hr
  all_goals
    simp only [famOf, xOf, nOf, nnOf, BitVec.reduceExtractLsb', nibble_and_ones, byte_and_ones] at hf hx hn hnn
    subst hf
  all_goals simp_all [Instr.mnemonic]

/-- The row of an instruction's mnemonic selects its word, for every constructor (R95). -/
theorem encodeCarriesPattern (i : Instr) : Laws.EncodeCarriesPattern.Statement i := by
  open Laws.EncodeCarriesPattern in
  cases i
  exacts [cls, ret, jp _, call _, seImm _ _, sneImm _ _, seReg _ _, ldImm _ _, addImm _ _, ldReg _ _, or _ _,
    and _ _, xor _ _, addReg _ _, sub _ _, shr _ _, subn _ _, shl _ _, sneReg _ _, ldI _, jpV0 _, rnd _ _,
    drw _ _ _, skp _, sknp _, ldVxDt _, ldVxK _, ldDtVx _, ldStVx _, addI _, ldF _, ldB _, ldMemVx _, ldVxMem _,
    unrecognised _]

/-- The row of what a word decodes to selects that word (R95). -/
theorem selects_of_mnemonic {r : Row} (hr : r ∈ opcodeTable) {w : Word}
    (h : (decodeWord w).mnemonic = r.mnemonic) : r.selects w = true := by
  obtain ⟨hwf, hw⟩ := restores_decodeWord w
  rw [← hw]
  exact encodeCarriesPattern _ hwf r hr h.symm

/-- Every mnemonic but `UNRECOGNISED` has a row, and that one has none. -/
theorem mnemonic_row (i : Instr) : (∃ w, i = .unrecognised w) ∨ ∃ r ∈ opcodeTable, i.mnemonic = r.mnemonic := by
  cases i with
  | unrecognised w => exact .inl ⟨w, rfl⟩
  | _ => exact .inr (by simp only [Instr.mnemonic]; decide)

theorem row_mnemonic_ne : ∀ r ∈ opcodeTable, r.mnemonic ≠ "UNRECOGNISED" := by decide

/-- A word decodes to the unrecognised instruction exactly when no row selects it (R96). -/
theorem decodeWord_eq_unrecognised_iff (w : Word) :
    decodeWord w = .unrecognised w ↔ ∀ r ∈ opcodeTable, r.selects w = false := by
  constructor
  · intro h r hr
    by_contra hs
    have hm := mnemonic_of_selects hr (Bool.eq_true_of_not_eq_false hs)
    rw [h] at hm
    exact row_mnemonic_ne r hr hm.symm
  · intro hnone
    rcases mnemonic_row (decodeWord w) with ⟨v, hv⟩ | ⟨r, hr, hm⟩
    · obtain ⟨-, hw⟩ := restores_decodeWord w
      rw [hv] at hw ⊢
      exact congrArg Instr.unrecognised hw
    · exact absurd (selects_of_mnemonic hr hm) (by simp [hnone r hr])

/-- Settles O3: by the row that an instruction's mnemonic names, both ways. -/
theorem decodeSelectsTheRowOfTheTable : Obligations.DecodeSelectsTheRowOfTheTable := by
  intro w
  refine ⟨fun r hr => ⟨mnemonic_of_selects hr, selects_of_mnemonic hr⟩, decodeWord_eq_unrecognised_iff w,
    fun h => ?_, decodeWord_of_isUnrecognised⟩
  obtain ⟨hwf, -⟩ := restores_decodeWord w
  rwa [h] at hwf

/-- Settles O4, one word at a time. -/
theorem exampleWordsDecode : Obligations.ExampleWordsDecode := by
  unfold Obligations.ExampleWordsDecode
  decide

end Sys2Proof

/-! PROOF. The step (40_step_cycle.md R120 to R124): what each state of the core and each sample make of one
step, and of many while Halted. -/

namespace Sys2Proof.Machine

section
variable (s : State)

/-! ### One step, by the guard that decides it -/

theorem step_of_halted (hrun : s.run = .halted) : step s = .next s.sample := by
  obtain ⟨-, h⟩ | ⟨hr, -⟩ | ⟨hr, -⟩ | ⟨hr, -⟩ | ⟨hr, -⟩ := step_cases s
  · exact h
  · exact absurd hrun hr
  all_goals simp [hrun] at hr

theorem step_of_stopReq (hrun : s.run ≠ .halted) (hstop : s.sample.input.stopReq = true) :
    step s = .next s.sample.stop := by
  obtain ⟨hr, -⟩ | ⟨-, -, h⟩ | ⟨-, hs, -⟩ | ⟨-, hs, -⟩ | ⟨-, hs, -⟩ := step_cases s
  · exact absurd hr hrun
  · exact h
  all_goals simp [hstop] at hs

theorem step_of_fetchLimit (hrun : s.run = .running) (hstop : s.sample.input.stopReq = false)
    (hpc : 4094 ≤ s.pc.toNat) : step s = .next (s.sample.raise ⟨.fetchOutOfRange, s.pc⟩) := by
  obtain ⟨hr, -⟩ | ⟨-, hs, -⟩ | ⟨hr, -⟩ | ⟨-, -, -, h⟩ | ⟨-, -, hlt, -⟩ := step_cases s
  case inr.inr.inr.inl => exact h
  case inr.inl => simp [hstop] at hs
  case inr.inr.inr.inr => omega
  all_goals simp [hrun] at hr

theorem step_of_ready (h : s.Ready) : step s = exec (decodeWord s.nextWord) s.fetched := by
  obtain ⟨hrun, hstop, hpc⟩ := h
  obtain ⟨hr, -⟩ | ⟨-, hs, -⟩ | ⟨hr, -⟩ | ⟨-, -, hge, -⟩ | ⟨-, -, -, h⟩ := step_cases s
  case inr.inr.inr.inr => exact h
  case inr.inl => simp [hstop] at hs
  case inr.inr.inr.inl => omega
  all_goals simp [hrun] at hr

/-! ### The state that fetch leaves -/

theorem fetched_unchanged_sample : UnchangedExcept [.ir, .pc] s.sample s.fetched := by
  intro p hp
  cases p with
  | ir => simp at hp
  | pc => simp at hp
  | mem => exact fun _ => rfl
  | _ => simp [Part.Same, State.fetched, State.reg]

theorem fetched_unchanged : UnchangedExcept [.ir, .pc, .inputs] s s.fetched :=
  ((sample_unchanged s).mono (by simp)).trans ((fetched_unchanged_sample s).mono (by simp))

@[simp] theorem fetched_ir : s.fetched.ir = s.nextWord := rfl

theorem fetched_pc_toNat (h : s.pc.toNat < 4094) : s.fetched.pc.toNat = s.pc.toNat + 2 := by
  show (s.pc + 2).toNat = _
  rw [BitVec.toNat_add]
  exact Nat.mod_eq_of_lt (show s.pc.toNat + 2 < 65536 by omega)

/-- The word at `PC` as a number, big-endian (R67). -/
theorem nextWord_toNat :
    s.nextWord.toNat = (s.byteAt s.pc.toNat).toNat * 256 + (s.byteAt (s.pc.toNat + 1)).toNat := by
  rw [State.nextWord, BitVec.toNat_append, ← Nat.shiftLeft_add_eq_or_of_lt (BitVec.isLt _), Nat.shiftLeft_eq]

/-- The stop request is a fault like any other (R122). -/
theorem faulted_stop : Faulted .externalStop s.pc s s.stop := faulted_raise s ⟨.externalStop, s.pc⟩

/-! ### Many steps -/

theorem run_succ_of_step {s t : core.State} (h : core.step s = .next t) (k : Nat) :
    core.run (k + 1) s = core.run k t := by
  rw [Host.Core.run, h]

end

/-- Settles O5: the two bytes decode to what their word decodes to. -/
theorem stepRunsTheDecodedInstruction : Obligations.StepRunsTheDecodedInstruction := by
  intro s i hready hdecode
  have hi : decodeWord s.nextWord = i := congrArg Prod.fst (Except.ok.inj hdecode)
  rw [step_of_ready s hready, hi]

/-- Settles O7: a Halted step is the sampling alone. -/
theorem haltedStepIsInert : Obligations.HaltedStepIsInert := fun s hrun =>
  ⟨s.sample, step_of_halted s hrun, sample_unchanged s⟩

/-- Settles O8, by induction on the number of steps: each is the sampling alone and leaves the core Halted. -/
theorem haltedIsAbsorbing : Obligations.HaltedIsAbsorbing := by
  intro k
  induction k with
  | zero => exact fun s _ => ⟨s, rfl, .refl _ s⟩
  | succ k ih =>
    intro s hrun
    obtain ⟨t, hsteps, hframe⟩ := ih s.sample (by rw [sample_run, hrun])
    exact ⟨t, (run_succ_of_step (step_of_halted s hrun) k).trans hsteps, (sample_unchanged s).trans hframe⟩

/-- Settles O9: the stop is a fault taken in the sampled state. -/
theorem stopRequestHalts : Obligations.StopRequestHalts := by
  intro s hrun hstop
  refine ⟨s.sample.stop, step_of_stopReq s hrun hstop, ?_⟩
  rw [← sample_pc s]
  exact faulted_stop s.sample

/-- Settles O11: the fetch fault is taken in the sampled state. -/
theorem fetchPastTheLimitFaults : Obligations.FetchPastTheLimitFaults := fun s hrun hstop hpc =>
  ⟨_, step_of_fetchLimit s hrun hstop hpc, faulted_raise s.sample ⟨.fetchOutOfRange, s.pc⟩⟩

end Sys2Proof.Machine

/-! PROOF. Control flow (41_flow.md): jumps, skips on two registers, the no-op, and the call stack, whose
valid entries are seen as one list (10_state.md R26 to R28). -/

namespace Sys2Proof.Machine

section
variable (s : State)

/-! ### Jumps, skips and the no-op -/

theorem exec_jp (nnn : Addr12) : exec (.jp nnn) s = .next (s.setPc (addrOf nnn)) := rfl

theorem exec_jpV0 (nnn : Addr12) : exec (.jpV0 nnn) s = .next (s.setPc (widen (s.reg 0) + addrOf nnn)) := rfl

theorem exec_seReg (x y : Reg) : exec (.seReg x y) s = .next (s.skipIf (s.reg x == s.reg y)) := rfl

theorem exec_sneReg (x y : Reg) : exec (.sneReg x y) s = .next (s.skipIf (s.reg x != s.reg y)) := rfl

theorem exec_unrecognised (w : Word) : exec (.unrecognised w) s = .next s := rfl

/-- The sum of a byte and a 12-bit address fits into 16 bits (R147). -/
theorem widen_add_addrOf_toNat (b : Byte) (nnn : Addr12) :
    (widen b + addrOf nnn).toNat = b.toNat + nnn.toNat := by
  have hb := b.isLt
  have hn := nnn.isLt
  rw [BitVec.toNat_add, widen_toNat, addrOf_toNat, Nat.mod_eq_of_lt (by omega)]

/-! ### Return and call -/

theorem setStack_unchanged (stack : Vector Word 16) (sp : Fin 17) :
    UnchangedExcept [.stack] s { s with stack := stack, sp := sp } := by
  intro p hp
  cases p with
  | stack => simp at hp
  | mem => exact fun _ => rfl
  | v => exact fun _ => rfl
  | _ => simp [Part.Same]

/-- A new stack and a new `PC`: what a call or a return that completes writes. -/
theorem setStack_setPc_unchanged (stack : Vector Word 16) (sp : Fin 17) (a : Word) :
    UnchangedExcept [.pc, .stack] s (State.setPc { s with stack := stack, sp := sp } a) :=
  ((setStack_unchanged s stack sp).mono (by simp)).trans ((setPc_unchanged _ a).mono (by simp))

theorem exec_ret_of_empty (h : s.sp.val = 0) : exec .ret s = .next (s.raise ⟨.stackUnderflow, 0⟩) := by
  rw [exec, execRet, State.pop, if_pos h, settle_error]

theorem exec_ret_of_entry {top : Fin 16} (h : s.sp.val = top.val + 1) :
    exec .ret s = .next (State.setPc { s with sp := top.castSucc } (s.stack.get top)) := by
  obtain ⟨hempty, -⟩ | ⟨k, sp', hk, hsp', hpop⟩ := pop_cases s
  · omega
  · obtain rfl : k = top := Fin.ext (by omega)
    obtain rfl : sp' = k.castSucc := Fin.ext hsp'
    rw [exec, execRet, hpop, settle_ok]

theorem exec_call_of_full (nnn : Addr12) (h : ¬ s.sp.val < 16) :
    exec (.call nnn) s = .next (s.raise ⟨.stackOverflow, s.pc⟩) := by
  rw [exec, execCall, State.push, dif_neg h, settle_error]

theorem exec_call_of_room (nnn : Addr12) (h : s.sp.val < 16) : exec (.call nnn) s = .next (State.setPc
    { s with stack := s.stack.set s.sp.val s.pc h, sp := ⟨s.sp.val + 1, Nat.succ_lt_succ h⟩ } (addrOf nnn)) := by
  rw [exec, execCall, State.push, dif_pos h, settle_ok]

/-- The stack is empty, or it has a top entry. -/
theorem sp_cases : s.sp.val = 0 ∨ ∃ top : Fin 16, s.sp.val = top.val + 1 := by
  have := s.sp.isLt
  by_cases h : s.sp.val = 0
  · exact .inl h
  · exact .inr ⟨⟨s.sp.val - 1, by omega⟩, by simp only; omega⟩

/-- The stack read after a push. -/
theorem stack_set_get (stack : Vector Word 16) (sp : Nat) (h : sp < 16) (a : Word) (k : Fin 16) :
    (stack.set sp a h).get k = if sp = k.val then a else stack.get k := by
  simp only [Vector.get_eq_getElem, Vector.getElem_set]

/-! ### The valid entries as a list -/

/-- The valid entries of the stack, the oldest first (R26). -/
def State.entries (s : State) : List Word := s.stack.toList.take s.sp.val

theorem entries_length : s.entries.length = s.sp.val := by
  have := s.sp.isLt
  rw [State.entries, List.length_take, Vector.length_toList]
  omega

/-- With one entry more, the list is one longer at its end. -/
theorem take_stack_succ (stack : Vector Word 16) (top : Fin 16) :
    stack.toList.take (top.val + 1) = stack.toList.take top.val ++ [stack.get top] := by
  simp [List.take_add_one, Vector.get_eq_getElem]

theorem push_entries (a : Word) (hroom : s.sp.val < 16) :
    ∃ t, s.push a = .ok t ∧ t.entries = s.entries ++ [a] := by
  obtain ⟨hfull, -⟩ | ⟨h, sp', hsp', hpush⟩ := push_cases s a
  · omega
  · refine ⟨_, hpush, ?_⟩
    have htake := take_stack_succ (s.stack.set s.sp.val a h) ⟨s.sp.val, h⟩
    simp only [State.entries, hsp']
    rw [htake, stack_set_get, if_pos rfl, Vector.toList_set, List.take_set_of_le (Nat.le_refl _)]

theorem pop_entries {older : List Word} {a : Word} (h : s.entries = older ++ [a]) :
    ∃ t, s.pop = .ok (a, t) ∧ t.entries = older := by
  have hlen := congrArg List.length h
  rw [entries_length, List.length_append, List.length_singleton] at hlen
  obtain ⟨hempty, -⟩ | ⟨top, sp', htop, hsp', hpop⟩ := pop_cases s
  · omega
  · rw [State.entries, htop, take_stack_succ] at h
    obtain ⟨hold, ha⟩ := List.append_inj' h rfl
    refine ⟨_, by rw [hpop, List.singleton_inj.1 ha], ?_⟩
    show s.stack.toList.take sp'.val = older
    rw [hsp', hold]

/-- PUSHES append to the entries. -/
theorem pushAll_entries (addresses : List Word) (hroom : s.sp.val + addresses.length ≤ 16) :
    ∃ t, s.pushAll addresses = .ok t ∧ t.entries = s.entries ++ addresses := by
  induction addresses generalizing s with
  | nil => exact ⟨s, rfl, (List.append_nil _).symm⟩
  | cons a rest ih =>
    rw [List.length_cons] at hroom
    obtain ⟨t, hpush, ht⟩ := push_entries s a (by omega)
    have hsp : t.sp.val = s.sp.val + 1 := by rw [← entries_length, ht, List.length_append, entries_length]; rfl
    obtain ⟨u, hall, hu⟩ := ih t (by omega)
    refine ⟨u, ?_, by rw [hu, ht, List.append_assoc]; rfl⟩
    rw [State.pushAll, hpush]
    exact hall

/-- POPS take the newest entries off, the newest first. -/
theorem popAll_entries (older newer : List Word) (h : s.entries = older ++ newer) :
    ∃ u, s.popAll newer.length = .ok (newer.reverse, u) ∧ u.entries = older := by
  induction newer using List.reverseRecOn generalizing s with
  | nil => exact ⟨s, rfl, by rw [h, List.append_nil]⟩
  | append_singleton newer a ih =>
    obtain ⟨t, hpop, ht⟩ := pop_entries s (h.trans (List.append_assoc older newer [a]).symm)
    obtain ⟨u, hall, hu⟩ := ih t ht
    refine ⟨u, ?_, hu⟩
    rw [List.length_append, List.length_singleton, State.popAll, hpop, List.reverse_append]
    simp only [hall]
    rfl

end

/-- Settles O16: the return with a top entry and the return on an empty stack. -/
theorem returnPopsOrFaults : Obligations.ReturnPopsOrFaults := fun s =>
  ⟨fun _ htop => ⟨_, exec_ret_of_entry s htop, rfl, rfl, rfl, setStack_setPc_unchanged s s.stack _ _⟩,
    fun hempty => ⟨_, exec_ret_of_empty s hempty, faulted_raise s ⟨.stackUnderflow, 0⟩⟩⟩

/-- Settles O17: the jump is one write of `PC`. -/
theorem jumpGoesToTheImmediate : Obligations.JumpGoesToTheImmediate := fun s nnn =>
  ⟨decodeWord_jp nnn, _, exec_jp s nnn, addrOf_toNat nnn, setPc_unchanged s _⟩

/-- Settles O18: the call with room on the stack and the call on a full one. -/
theorem callPushesOrFaults : Obligations.CallPushesOrFaults := by
  intro s nnn
  refine ⟨fun free hfree => ?room, fun hfull =>
    ⟨_, exec_call_of_full s nnn (by omega), faulted_raise s ⟨.stackOverflow, s.pc⟩⟩⟩
  have hroom : s.sp.val < 16 := by omega
  refine ⟨_, exec_call_of_room s nnn hroom, addrOf_toNat nnn, rfl, ?_, fun k hk => ?_,
    setStack_setPc_unchanged s _ _ _⟩
  · rw [setPc_stack, stack_set_get, if_pos hfree]
  · rw [setPc_stack, stack_set_get, if_neg fun e => hk (Fin.ext (e.symm.trans hfree))]

/-- Settles O19: the return finds the entry that the call pushed. -/
theorem returnUndoesCall : Obligations.ReturnUndoesCall := by
  intro s nnn hroom
  have hcall := exec_call_of_room s nnn hroom
  have hret := exec_ret_of_entry (top := ⟨s.sp.val, hroom⟩) (State.setPc
    { s with stack := s.stack.set s.sp.val s.pc hroom, sp := ⟨s.sp.val + 1, Nat.succ_lt_succ hroom⟩ }
    (addrOf nnn)) rfl
  have hpc : (s.stack.set s.sp.val s.pc hroom).get ⟨s.sp.val, hroom⟩ = s.pc := by rw [stack_set_get, if_pos rfl]
  refine ⟨_, _, hcall, hret, hpc, rfl, fun k hk => ?entries, ?frame⟩
  case entries => rw [setPc_stack, setPc_stack, stack_set_get, if_neg (by omega)]
  case frame =>
    intro p hp
    cases p with
    | stack => simp at hp
    | pc => exact hpc
    | _ => simp [Part.Same, State.byteAt, State.reg]

/-- Settles O20: pushes append to the list of entries, pops take it off from its end. -/
theorem stackReversesWhatIsPushed : Obligations.StackReversesWhatIsPushed := by
  intro s addresses hempty hlen
  have hnone : s.entries = [] := List.eq_nil_of_length_eq_zero (by rw [entries_length, hempty])
  obtain ⟨t, hpush, ht⟩ := pushAll_entries s addresses (by omega)
  rw [hnone, List.nil_append] at ht
  obtain ⟨u, hpop, hu⟩ := popAll_entries t [] addresses (by rw [ht, List.nil_append])
  refine ⟨t, hpush, ⟨u, hpop, by rw [← entries_length, hu, List.length_nil]⟩, fun a => ?_⟩
  rw [← ht, entries_length]
  obtain ⟨hfull, hfault⟩ | ⟨hroom, sp', -, hok⟩ := push_cases t a
  · exact ⟨fun _ => hfull, fun _ => hfault⟩
  · constructor
    · intro h; rw [hok] at h; cases h
    · intro h; omega

/-- Settles O21: the jump is one write of `PC`, and the sum does not wrap. -/
theorem jumpWithOffset : Obligations.JumpWithOffset := fun s nnn =>
  ⟨decodeWord_jpV0 nnn, _, exec_jpV0 s nnn, widen_add_addrOf_toNat (s.reg 0) nnn, setPc_unchanged s _⟩

/-- Settles O23: each skip is `State.skipIf` on its own comparison. -/
theorem skipsOnTwoRegisters : Obligations.SkipsOnTwoRegisters := by
  intro s x y
  constructor
  · refine ⟨_, exec_seReg s x y, skipIf_unchanged s _, ?_⟩
    simp only [skipIf_pc_toNat, beq_iff_eq]
  · refine ⟨_, exec_sneReg s x y, skipIf_unchanged s _, ?_⟩
    simp only [skipIf_pc_toNat, bne_iff_ne]

/-- Settles O24: the no-op answers its own state, so that a step on one leaves what fetch left. -/
theorem unrecognisedWordIsANoOp : Obligations.UnrecognisedWordIsANoOp := by
  refine ⟨fun s w => ⟨s, exec_unrecognised s w, .refl [] s⟩, fun s hready hword => ?_⟩
  refine ⟨s.fetched, ?_, rfl, fetched_pc_toNat s hready.inRange, fetched_unchanged_sample s⟩
  rw [step_of_ready s hready, decodeWord_of_isUnrecognised hword, exec_unrecognised]

end Sys2Proof.Machine

/-! PROOF. Arithmetic with a flag, shifts and the random byte (42_alu.md R166 to R171): what the pair of
writes, flag first and result second, leaves in the registers. -/

namespace Sys2Proof.Machine

section
variable (s : State)

/-! ### Flag first, result second (R127, D23) -/

theorem setFlagAndReg_unchanged (f : Bool) (x : Reg) (b : Byte) :
    UnchangedExcept [.v] s (s.setFlagAndReg f x b) :=
  (setReg_unchanged s VF (flagByte f)).trans (setReg_unchanged _ x b)

theorem setFlagAndReg_regsExcept (f : Bool) (x : Reg) (b : Byte) :
    RegsExcept [x, VF] s (s.setFlagAndReg f x b) := by
  intro k hk
  simp only [List.mem_cons, List.not_mem_nil, or_false, not_or] at hk
  rw [setFlagAndReg_reg, if_neg hk.1, if_neg hk.2]

theorem setFlagAndReg_reg_same (f : Bool) (x : Reg) (b : Byte) : (s.setFlagAndReg f x b).reg x = b := by
  rw [setFlagAndReg_reg, if_pos rfl]

theorem setFlagAndReg_reg_VF (f : Bool) {x : Reg} (b : Byte) (hx : x ≠ VF) :
    (s.setFlagAndReg f x b).reg VF = flagByte f := by
  rw [setFlagAndReg_reg, if_neg hx.symm, if_pos rfl]

/-! ### Each instruction is one pair of writes -/

theorem exec_addReg (x y : Reg) : exec (.addReg x y) s =
    .next (s.setFlagAndReg (carryOut (s.reg x) (s.reg y)) x (s.reg x + s.reg y)) := rfl

theorem exec_sub (x y : Reg) : exec (.sub x y) s =
    .next (s.setFlagAndReg (noBorrow (s.reg x) (s.reg y)) x (s.reg x - s.reg y)) := rfl

theorem exec_subn (x y : Reg) : exec (.subn x y) s =
    .next (s.setFlagAndReg (noBorrow (s.reg y) (s.reg x)) x (s.reg y - s.reg x)) := rfl

theorem exec_shr (x y : Reg) : exec (.shr x y) s =
    .next (s.setFlagAndReg (shiftedOutRight (s.reg x)) x (s.reg x >>> 1)) := rfl

theorem exec_shl (x y : Reg) : exec (.shl x y) s =
    .next (s.setFlagAndReg (shiftedOutLeft (s.reg x)) x (s.reg x <<< 1)) := rfl

theorem carryOut_toNat (a b : Byte) :
    (flagByte (carryOut a b)).toNat = if a.toNat + b.toNat > 255 then 1 else 0 := by
  simp only [flagByte_toNat, carryOut, decide_eq_true_eq, gt_iff_lt]

theorem noBorrow_toNat (a b : Byte) :
    (flagByte (noBorrow a b)).toNat = if a.toNat ≥ b.toNat then 1 else 0 := by
  simp only [flagByte_toNat, noBorrow, decide_eq_true_eq, ge_iff_le]

/-- The difference modulo 256, without a negative number on the way (R172). -/
theorem sub_toNat (a b : Byte) : (a - b).toNat = (a.toNat + 256 - b.toNat) % 256 := by
  have := b.isLt
  rw [BitVec.toNat_sub]
  congr 1
  omega

theorem ushiftRight_one_toNat (a : Byte) : (a >>> 1).toNat = a.toNat / 2 := by
  rw [BitVec.toNat_ushiftRight, Nat.shiftRight_one]

theorem shiftLeft_one_toNat (a : Byte) : (a <<< 1).toNat = a.toNat * 2 % 256 := by
  rw [BitVec.toNat_shiftLeft, Nat.shiftLeft_eq, Nat.pow_one]

/-- What a subtraction of `b` from `a` into `Vx` leaves, whichever operand `Vx` is (R167, R169). -/
theorem subtract_spec (x : Reg) (a b : Byte) : let t := s.setFlagAndReg (noBorrow a b) x (a - b)
    (t.reg x).toNat = (a.toNat + 256 - b.toNat) % 256 ∧
    (x ≠ VF → (t.reg VF).toNat = if a.toNat ≥ b.toNat then 1 else 0) ∧
    RegsExcept [x, VF] s t ∧ UnchangedExcept [.v] s t :=
  ⟨by rw [setFlagAndReg_reg_same, sub_toNat],
    fun hx => by rw [setFlagAndReg_reg_VF s _ _ hx, noBorrow_toNat],
    setFlagAndReg_regsExcept s _ x _, setFlagAndReg_unchanged s _ x _⟩

/-! ### The random byte -/

theorem drawn_unchanged : UnchangedExcept [.draws] s s.drawByte.2 := by
  obtain ⟨b, -, h⟩ | ⟨-, h⟩ := drawByte_cases s <;> rw [h]
  · exact .refl _ s
  · intro p hp
    cases p with
    | draws => simp at hp
    | _ => simp [Part.Same, State.byteAt, State.reg]

theorem drawn_reg (k : Reg) : s.drawByte.2.reg k = s.reg k := drawn_unchanged s .v (by simp) k

theorem exec_rnd (x : Reg) (nn : Byte) :
    exec (.rnd x nn) s = .next (s.drawByte.2.setReg x (s.drawByte.1 &&& nn)) := rfl

theorem drawn_setReg_unchanged (x : Reg) (b : Byte) :
    UnchangedExcept [.v, .draws] s (s.drawByte.2.setReg x b) :=
  ((drawn_unchanged s).mono (by simp)).trans ((setReg_unchanged _ x b).mono (by simp))

theorem drawn_setReg_regsExcept (x : Reg) (b : Byte) : RegsExcept [x] s (s.drawByte.2.setReg x b) :=
  fun k hk => (setReg_regsExcept _ x b k hk).trans (drawn_reg s k)

end

/-- Settles O28: the pair of writes with the byte sum and the carry. -/
theorem addSetsCarry : Obligations.AddSetsCarry := by
  intro s x y
  refine ⟨_, exec_addReg s x y, ?_, fun hx => ?_,
    setFlagAndReg_regsExcept s _ x _, setFlagAndReg_unchanged s _ x _⟩
  · rw [setFlagAndReg_reg_same]
    exact BitVec.toNat_add _ _
  · rw [setFlagAndReg_reg_VF s _ _ hx, carryOut_toNat]

/-- Settles O29: the pair of writes with the byte difference and the no-borrow flag, for both orders of the
operands. -/
theorem subtractSetsNoBorrow : Obligations.SubtractSetsNoBorrow := by
  intro s x y
  exact ⟨⟨_, exec_sub s x y, subtract_spec s x _ _⟩, ⟨_, exec_subn s x y, subtract_spec s x _ _⟩⟩

/-- Settles O30: the pair of writes with `Vx` shifted by one and the bit shifted out. -/
theorem shiftsByOne : Obligations.ShiftsByOne := by
  intro s x y
  constructor
  · refine ⟨_, exec_shr s x y, ?_, fun hx => ?_,
      setFlagAndReg_regsExcept s _ x _, setFlagAndReg_unchanged s _ x _⟩
    · rw [setFlagAndReg_reg_same, ushiftRight_one_toNat]
    · rw [setFlagAndReg_reg_VF s _ _ hx, shiftedOutRight_toNat]
  · refine ⟨_, exec_shl s x y, ?_, fun hx => ?_,
      setFlagAndReg_regsExcept s _ x _, setFlagAndReg_unchanged s _ x _⟩
    · rw [setFlagAndReg_reg_same, shiftLeft_one_toNat]
    · rw [setFlagAndReg_reg_VF s _ _ hx, shiftedOutLeft_toNat]

/-- Settles O31, by the two ways a byte is drawn; either way the result is the byte under the mask. -/
theorem randomByteIsMasked : Obligations.RandomByteIsMasked := by
  intro s x nn
  refine ⟨_, exec_rnd s x nn, fun b hb => ?listed, fun hnone => ?free, fun k hk => ?masked,
    drawn_setReg_regsExcept s x _, drawn_setReg_unchanged s x _⟩
  case listed =>
    obtain ⟨c, hc, hdraw⟩ | ⟨hnone, -⟩ := drawByte_cases s
    · rw [hc] at hb
      rw [setReg_reg_same, setReg_draws, hdraw, Option.some.inj hb]
      exact ⟨rfl, rfl⟩
    · rw [hnone] at hb; cases hb
  case free =>
    obtain ⟨c, hc, -⟩ | ⟨-, hdraw⟩ := drawByte_cases s
    · rw [hc] at hnone; cases hnone
    · rw [setReg_draws, hdraw]
  case masked =>
    rw [setReg_reg_same, BitVec.getLsbD_and, Bool.and_eq_true] at hk
    exact hk.2

end Sys2Proof.Machine

/-! PROOF. Keypad and timers (45_keypad_timers.md): the skips on a key, the start of the key wait, and the
timer pair against the down-counter of R32. -/

namespace Sys2Proof.Machine

section
variable (s : State) (x : Reg)

/-! ### The skips on a key (R230, R231, R236) -/

theorem keyTest_of_key {b : Byte} {k : Key} (h : b.toNat = k.val) : s.keyTest b = .ok (s.keyPressed k) := by
  have hk : Fin.ofNat 16 b.toNat = k := Fin.ext (by rw [Fin.val_ofNat, h, Nat.mod_eq_of_lt k.isLt])
  rw [keyTest_eq, if_neg (by omega), hk]

theorem keyTest_of_noKey {b : Byte} (h : 15 < b.toNat) :
    s.keyTest b = .error ⟨.keyIndex, BitVec.ofNat 16 b.toNat⟩ := by
  rw [keyTest_eq, if_pos h, widen_eq_ofNat]

theorem exec_skp_of_key {k : Key} (h : (s.reg x).toNat = k.val) :
    exec (.skp x) s = .next (s.skipIf (s.keyPressed k)) := by
  rw [exec, execSkp, keyTest_of_key s h, settle_ok]

theorem exec_sknp_of_key {k : Key} (h : (s.reg x).toNat = k.val) :
    exec (.sknp x) s = .next (s.skipIf (!s.keyPressed k)) := by
  rw [exec, execSknp, keyTest_of_key s h, settle_ok]

theorem exec_skp_of_noKey (h : 15 < (s.reg x).toNat) :
    exec (.skp x) s = .next (s.raise ⟨.keyIndex, BitVec.ofNat 16 (s.reg x).toNat⟩) := by
  rw [exec, execSkp, keyTest_of_noKey s h, settle_error]

theorem exec_sknp_of_noKey (h : 15 < (s.reg x).toNat) :
    exec (.sknp x) s = .next (s.raise ⟨.keyIndex, BitVec.ofNat 16 (s.reg x).toNat⟩) := by
  rw [exec, execSknp, keyTest_of_noKey s h, settle_error]

/-! ### The key wait starts, the delay timer is read -/

theorem exec_ldVxK : exec (.ldVxK x) s = .next (s.setRun .awaitingKey) := rfl

theorem exec_ldVxDt : exec (.ldVxDt x) s = .next (s.setReg x s.readDt) := rfl

end

/-! ### The timer pair (R29 to R32) -/

/-- After `k` units the counter form has lost the whole ticks, and its prescaler holds the rest (R32). -/
theorem downCounter_after (b : Byte) {q : Nat} (hq : 0 < q) (k : Nat) :
    (DownCounter.arm b).after q k = ⟨b.toNat - k / q, k % q⟩ := by
  induction k with
  | zero => simp [DownCounter.after, DownCounter.arm]
  | succ k ih =>
    have hk := Nat.div_add_mod k q
    have hlt := Nat.mod_lt k hq
    rw [DownCounter.after, ih, DownCounter.unit]
    by_cases htick : k % q + 1 = q
    · have hk' : k + 1 = q * (k / q + 1) := by rw [Nat.mul_add, Nat.mul_one]; omega
      have hdiv : (k + 1) / q = k / q + 1 := by rw [hk', Nat.mul_div_cancel_left _ hq]
      have hmod : (k + 1) % q = 0 := by rw [hk', Nat.mul_mod_right]
      rw [if_pos htick, hdiv, hmod, Nat.sub_sub]
    · have hk' : k + 1 = q * (k / q) + (k % q + 1) := by omega
      have hlt' : k % q + 1 < q := by omega
      have hdiv : (k + 1) / q = k / q := by rw [hk', Nat.mul_add_div hq, Nat.div_eq_of_lt hlt', Nat.add_zero]
      have hmod : (k + 1) % q = k % q + 1 := by rw [hk', Nat.mul_add_mod, Nat.mod_eq_of_lt hlt']
      rw [if_neg htick, hdiv, hmod]

/-- Settles O43: for a key number the test answers the level of that key. -/
theorem keySkips : Obligations.KeySkips := by
  intro s x k hk
  constructor
  · refine ⟨_, exec_skp_of_key s x hk, skipIf_unchanged s _, ?_⟩
    rw [skipIf_pc_toNat]
    rfl
  · refine ⟨_, exec_sknp_of_key s x hk, skipIf_unchanged s _, ?_⟩
    simp only [skipIf_pc_toNat, Bool.not_eq_true']
    rfl

/-- Settles O44: above 15 both skips raise the same fault. -/
theorem keyIndexAboveFifteenFaults : Obligations.KeyIndexAboveFifteenFaults := by
  intro s x i hi hx
  have hfault := faulted_raise s ⟨.keyIndex, BitVec.ofNat 16 (s.reg x).toNat⟩
  rcases hi with rfl | rfl
  · exact ⟨_, exec_skp_of_noKey s x hx, hfault⟩
  · exact ⟨_, exec_sknp_of_noKey s x hx, hfault⟩

/-- Settles O45: `Fx0A` is one write of the run state. -/
theorem waitForKeyStarts : Obligations.WaitForKeyStarts := fun s x =>
  ⟨_, exec_ldVxK s x, rfl, rfl, rfl, setRun_unchanged s .awaitingKey⟩

/-- Settles O47: `Fx07` is one register write, of the timer read now. -/
theorem readsTheDelayTimer : Obligations.ReadsTheDelayTimer := by
  intro s x
  refine ⟨_, exec_ldVxDt s x, ?_, setReg_regsExcept s x _, setReg_unchanged s x _⟩
  rw [setReg_reg_same]
  exact timerRead_toNat s.dt s.launch.q.val s.now

/-- Settles O49: what is read is the armed value less the whole ticks, and those only grow. -/
theorem timerRunsDownAndStays : Obligations.TimerRunsDownAndStays := by
  intro timer q now later hq harmed hlater
  simp only [← BitVec.toNat_inj, timerRead_toNat]
  refine ⟨?later, Nat.sub_le _ _, fun hfirst => ?first, fun hlast => ?last⟩
  case later =>
    have hticks : (now - timer.armedAt) / q ≤ (later - timer.armedAt) / q :=
      Nat.div_le_div_right (by omega)
    omega
  case first => rw [Nat.div_eq_of_lt (by omega), Nat.sub_zero]
  case last =>
    have hticks : timer.value.toNat ≤ (now - timer.armedAt) / q := (Nat.le_div_iff_mul_le hq).2 (by omega)
    exact Nat.sub_eq_zero_of_le hticks

/-- Settles O50: the counter has lost the whole ticks, and its prescaler is a remainder. -/
theorem timerRefinesTheDownCounter : Obligations.TimerRefinesTheDownCounter := by
  intro b armedAt q k hq
  rw [downCounter_after b hq, timerRead_toNat, Nat.add_sub_cancel_left]
  exact ⟨rfl, Nat.mod_lt k hq⟩

end Sys2Proof.Machine

/-! PROOF. Reset and the outputs (10_state.md R38, R40; 70_reset_and_hazards.md): what the reset state holds,
and the codes that the host sees. -/

namespace Sys2Proof.Machine

section
variable (l : Launch)

theorem reset_reg (k : Reg) : (State.resetWith l).reg k = 0 := by
  simp [State.reg, State.resetWith, Vector.get_eq_getElem]

theorem reset_stack (k : Fin 16) : (State.resetWith l).stack.get k = 0 := by
  simp [State.resetWith, Vector.get_eq_getElem]

theorem reset_pixel (r : Fin 32) (c : Fin 64) : pixel (State.resetWith l).fb r c = false := by
  simp [pixel, State.resetWith, Vector.get_eq_getElem]

theorem resetByte_font {a : Nat} (h : a < 0x50) : resetByte l a = l.font[a] := dif_pos h

theorem resetByte_rom {k : Nat} (h : k < l.rom.val.length) : resetByte l (0x200 + k) = l.rom.val[k] := by
  rw [resetByte, dif_neg (by omega), if_pos (by omega), Nat.add_sub_cancel_left, List.getD_eq_getElem _ _ h]

theorem resetByte_rest {a : Nat} (hfont : 0x50 ≤ a) (hrom : a < 0x200 ∨ 0x200 + l.rom.val.length ≤ a) :
    resetByte l a = 0 := by
  rw [resetByte, dif_neg (by omega)]
  split
  · rw [List.getD_eq_default _ _ (by omega), resetFill_eq]
  · exact resetFill_eq _ _

/-- A timer that was armed with 0 reads 0 at every time (R30). -/
theorem timerRead_zero (armedAt q now : Nat) : Timer.read ⟨0, armedAt⟩ q now = 0 :=
  BitVec.eq_of_toNat_eq ((timerRead_toNat _ q now).trans (Nat.zero_sub _))

end

/-- Settles O14: memory reads as the reset contents. -/
theorem resetStateOfTheSource : Obligations.ResetStateOfTheSource := fun l =>
  ⟨rfl, rfl, rfl, rfl, rfl, fun _ ha => resetByte_font l ha, fun _ hk => resetByte_rom l hk⟩

/-- Settles O15: every fill value is zero under the value taken. -/
theorem resetZeroesTheRest : Obligations.ResetZeroesTheRest := fun l =>
  ⟨reset_reg l, rfl, rfl, reset_stack l, fun now => ⟨timerRead_zero 0 _ now, timerRead_zero 0 _ now⟩, rfl, rfl,
    reset_pixel l, fun _ hfont hrom => resetByte_rest l hfont hrom⟩

/-- Settles O56, by the codes one run state and one cause at a time. -/
theorem outputsShowTheState : Obligations.OutputsShowTheState := by
  intro s hostNow
  refine ⟨?status, ?fault, rfl, rfl, rfl, rfl, timerRead_toNat s.st s.launch.q.val hostNow⟩
  case status =>
    show s.run.code.toNat = _
    cases s.run <;> rfl
  case fault =>
    show s.fault.code.toNat = _
    cases s.fault <;> rfl

/-- Settles O57: the stack is empty, the core is Running with no cause, and the font is the reset contents. -/
theorem resetEstablishesTheInvariant : Obligations.ResetEstablishesTheInvariant := fun l =>
  { memWf := reset_memWf l
    font := fun _ ha => resetByte_font l ha
    dtArmed := Nat.le_refl 0
    stArmed := Nat.le_refl 0
    pcBound := (by decide : (0x200#16).toNat ≤ 0x10FE)
    stackBound := fun _ hk => absurd hk (Nat.not_lt_zero _)
    haltedIff := ⟨nofun, fun h => absurd rfl h⟩
    noInfo := fun _ => rfl
    waiting := nofun }

end Sys2Proof.Machine

/-! PROOF. The memory instructions (43_index_memory.md): a store and a load, each where its bytes are inside
its range and where they are not, and the two in a row. -/

namespace Sys2Proof.Machine

section
variable (s : State)

/-! ### A store, settled (R66, R128, R259) -/

theorem pokes_unchanged (a : Nat) (bytes : List Byte) : UnchangedExcept [.mem] s (s.pokes a bytes) := by
  rw [pokes_eq]
  intro p hp
  cases p with
  | mem => simp at hp
  | _ => simp [Part.Same, State.reg]

theorem pokes_memExcept (hwf : s.MemWf) {a : Nat} {bytes : List Byte} (h : a + bytes.length ≤ 0x1000) :
    MemExcept a bytes.length s (s.pokes a bytes) := by
  intro b hb
  rw [pokes_byteAt s hwf a bytes h, if_neg (by omega)]

/-- A stored byte, by its place in the list. -/
theorem pokes_byteAt_add (hwf : s.MemWf) {a : Nat} {bytes : List Byte} (h : a + bytes.length ≤ 0x1000)
    {k : Nat} (hk : k < bytes.length) : (s.pokes a bytes).byteAt (a + k) = bytes.getD k 0 := by
  rw [pokes_byteAt s hwf a bytes h, if_pos (by omega), Nat.add_sub_cancel_left]

theorem ofNat_base : BitVec.ofNat 16 s.base = s.i := BitVec.ofNat_toNat 16 s.i

section
variable {bytes : List Byte}

theorem store_of_writable (h : Writable s.base bytes.length) :
    s.settle (s.storeBytes s.base bytes) = s.pokes s.base bytes := by
  rw [storeBytes_eq, if_pos (.inr h), settle_ok]

theorem store_of_font (hne : bytes ≠ []) (h : s.base < 0x50) :
    s.settle (s.storeBytes s.base bytes) = s.raise ⟨.fontWrite, s.i⟩ := by
  have hbad : ¬ (bytes = [] ∨ Writable s.base bytes.length) := by
    rintro (h' | ⟨h', -⟩)
    · exact hne h'
    · omega
  rw [storeBytes_eq, if_neg hbad, if_pos h, settle_error, ofNat_base]

theorem store_of_outside (h : 0x50 ≤ s.base) (hout : 0x1000 < s.base + bytes.length) (hne : bytes ≠ []) :
    s.settle (s.storeBytes s.base bytes) = s.raise ⟨.dataAddress, BitVec.ofNat 16 (max s.base 0x1000)⟩ := by
  have hbad : ¬ (bytes = [] ∨ Writable s.base bytes.length) := by
    rintro (h' | ⟨-, h'⟩)
    · exact hne h'
    · omega
  rw [storeBytes_eq, if_neg hbad, if_neg (by omega), settle_error]

end

theorem exec_ldB (x : Reg) :
    exec (.ldB x) s = .next (s.settle (s.storeBytes s.base (decimalDigits (s.reg x)))) := rfl

theorem exec_ldMemVx (x : Reg) :
    exec (.ldMemVx x) s = .next (s.settle (s.storeBytes s.base (s.regsUpTo x))) := rfl

theorem exec_ldB_of_writable (x : Reg) (h : Writable s.base 3) :
    exec (.ldB x) s = .next (s.pokes s.base (decimalDigits (s.reg x))) := by
  rw [exec_ldB, store_of_writable s (show Writable s.base (decimalDigits (s.reg x)).length from h)]

theorem exec_ldMemVx_of_writable (x : Reg) (h : Writable s.base (x.val + 1)) :
    exec (.ldMemVx x) s = .next (s.pokes s.base (s.regsUpTo x)) := by
  rw [exec_ldMemVx, store_of_writable s (by rwa [regsUpTo_length])]

/-- Byte `I + k` after `Fx55` is `Vk` (R194). -/
theorem pokes_regsUpTo_byteAt (hwf : s.MemWf) {x k : Reg} (h : Writable s.base (x.val + 1)) (hk : k ≤ x) :
    (s.pokes s.base (s.regsUpTo x)).byteAt (s.base + k.val) = s.reg k := by
  have hlen := regsUpTo_length s x
  have hlt : k.val < x.val + 1 := Nat.lt_succ_of_le hk
  rw [pokes_byteAt_add s hwf (by omega) (by omega), regsUpTo_getD s x k hk]

/-! ### A load (R65, R195) -/

/-- The bytes at `a`, ..., `a + n - 1`, no check. -/
def State.bytesAt (s : State) (a n : Nat) : List Byte := (List.range n).map fun k => s.byteAt (a + k)

@[simp] theorem bytesAt_length (a n : Nat) : (s.bytesAt a n).length = n := by
  rw [State.bytesAt, List.length_map, List.length_range]

theorem bytesAt_getD (a : Nat) {n k : Nat} (h : k < n) : (s.bytesAt a n).getD k 0 = s.byteAt (a + k) := by
  simp [State.bytesAt, List.getD, h]

theorem load_of_readable {a n : Nat} (h : n = 0 ∨ Readable a n) : s.loadBytes a n = .ok (s.bytesAt a n) := by
  rw [loadBytes_eq, if_pos h, State.bytesAt]

theorem load_of_outside {a n : Nat} (hn : 0 < n) (h : 0x1000 < a + n) :
    s.loadBytes a n = .error ⟨.dataAddress, BitVec.ofNat 16 (max a 0x1000)⟩ := by
  rw [loadBytes_eq, if_neg (by omega)]

theorem setRegs_unchanged (k : Nat) (bytes : List Byte) : UnchangedExcept [.v] s (s.setRegs k bytes) := by
  rw [setRegs_eq]
  intro p hp
  cases p with
  | v => simp at hp
  | _ => simp [Part.Same, State.byteAt]

theorem exec_ldVxMem_of_readable (x : Reg) (h : Readable s.base (x.val + 1)) :
    exec (.ldVxMem x) s = .next (s.setRegs 0 (s.bytesAt s.base (x.val + 1))) := by
  rw [exec, execLdVxMem, load_of_readable s (.inr h), settle_ok]

theorem exec_ldVxMem_of_outside (x : Reg) (h : 0x1000 < s.base + (x.val + 1)) :
    exec (.ldVxMem x) s = .next (s.raise ⟨.dataAddress, BitVec.ofNat 16 (max s.base 0x1000)⟩) := by
  rw [exec, execLdVxMem, load_of_outside s (Nat.succ_pos _) h, settle_error]

/-- Registers after `Fx65`: the loaded ones up to `Vx`, the old ones above (R195). -/
theorem setRegs_bytesAt_reg (x k : Reg) (a : Nat) : (s.setRegs 0 (s.bytesAt a (x.val + 1))).reg k =
    if k ≤ x then s.byteAt (a + k.val) else s.reg k := by
  have hx := x.isLt
  rw [setRegs_reg _ _ _ (by rw [bytesAt_length]; omega), bytesAt_length]
  by_cases hk : k ≤ x
  · have hlt : k.val < x.val + 1 := Nat.lt_succ_of_le hk
    rw [if_pos hk, if_pos (by omega), Nat.sub_zero, bytesAt_getD s a hlt]
  · have hlt : ¬ k.val < x.val + 1 := fun h => hk (Nat.le_of_lt_succ h)
    rw [if_neg hk, if_neg (by omega)]

end

/-- Settles O33: the three stored bytes are the decimal digits. -/
theorem storesDecimalDigits : Obligations.StoresDecimalDigits := by
  intro s x hwf hrange
  have hinside : s.base + (decimalDigits (s.reg x)).length ≤ 0x1000 := hrange.2
  have hbyte (k : Nat) (hk : k < 3) := pokes_byteAt_add s hwf hinside hk
  have hdigits := decimalDigits_eq (s.reg x)
  simp only [decimalDigits, List.map_cons, List.cons.injEq] at hdigits
  obtain ⟨hhundreds, htens, hones, -⟩ := hdigits
  refine ⟨_, exec_ldB_of_writable s x hrange, ?_, ?_, ?_, pokes_memExcept s hwf hinside,
    pokes_unchanged s _ _⟩
  · exact (congrArg BitVec.toNat (hbyte 0 (by decide))).trans hhundreds
  · exact (congrArg BitVec.toNat (hbyte 1 (by decide))).trans htens
  · exact (congrArg BitVec.toNat (hbyte 2 (by decide))).trans hones

/-- Settles O34: the stored bytes are `V0` to `Vx`. -/
theorem storesRegisters : Obligations.StoresRegisters := by
  intro s x hwf hrange
  have hlen := regsUpTo_length s x
  refine ⟨_, exec_ldMemVx_of_writable s x hrange, fun k hk => pokes_regsUpTo_byteAt s hwf hrange hk, ?_,
    pokes_unchanged s _ _⟩
  rw [← hlen]
  exact pokes_memExcept s hwf (by omega)

/-- Settles O35: both stores fault as `State.storeBytes` does, for their own number of bytes. -/
theorem storeFaultsWriteNothing : Obligations.StoreFaultsWriteNothing := by
  intro s x i n hi
  obtain ⟨bytes, hexec, hlen, hpos⟩ : ∃ bytes : List Byte,
      exec i s = .next (s.settle (s.storeBytes s.base bytes)) ∧ bytes.length = n ∧ bytes ≠ [] := by
    rcases hi with ⟨rfl, rfl⟩ | ⟨rfl, rfl⟩
    · exact ⟨_, exec_ldB s x, rfl, List.cons_ne_nil _ _⟩
    · exact ⟨_, exec_ldMemVx s x, regsUpTo_length s x,
        List.ne_nil_of_length_eq_add_one (regsUpTo_length s x)⟩
  refine ⟨fun hfont => ⟨_, hexec, ?_⟩, fun hnotFont hout => ⟨_, hexec, ?_⟩⟩
  · rw [store_of_font s hpos hfont]
    exact faulted_raise s ⟨.fontWrite, s.i⟩
  · rw [store_of_outside s hnotFont (hlen ▸ hout) hpos]
    exact faulted_raise s ⟨.dataAddress, _⟩

/-- Settles O36, by the registers after the load. -/
theorem loadsRegisters : Obligations.LoadsRegisters := by
  intro s x hrange
  refine ⟨_, exec_ldVxMem_of_readable s x hrange, fun k hk => ?_, fun k hk => ?_, setRegs_unchanged s 0 _⟩
  · rw [setRegs_bytesAt_reg, if_pos hk]
  · rw [setRegs_bytesAt_reg, if_neg (Fin.not_le.2 hk)]

/-- Settles O38: the load finds the bytes that the store wrote, and the registers above `Vx` are those held in
between. -/
theorem storeThenLoadRestores : Obligations.StoreThenLoadRestores := by
  intro s x between hwf hrange
  let t := s.pokes s.base (s.regsUpTo x)
  have hbase : t.base = s.base := congrArg BitVec.toNat (pokes_unchanged s s.base _ .i (by simp))
  have hreadable : Readable t.base (x.val + 1) := hbase ▸ hrange.2
  have hload := exec_ldVxMem_of_readable { t with v := between } x hreadable
  refine ⟨t, _, exec_ldMemVx_of_writable s x hrange, hload, fun k hk => ?_, fun k hk => ?_⟩
  · rw [setRegs_bytesAt_reg, if_pos hk]
    show t.byteAt (t.base + k.val) = _
    rw [hbase]
    exact pokes_regsUpTo_byteAt s hwf hrange hk
  · rw [setRegs_bytesAt_reg, if_neg (Fin.not_le.2 hk)]
    rfl

end Sys2Proof.Machine

/-! PROOF. The draw (44_display.md R211 to R214): where its rows may be read, where they may not, and two draws
in a row. -/

namespace Sys2Proof.Machine

section
variable (s : State) (x y : Reg) (n : Nibble)

/-- The rows that `Dxyn` reads. -/
def State.sprite (s : State) (n : Nibble) : List Byte := s.bytesAt s.base n.toNat

/-- The picture that `Dxyn` leaves, with its collision. -/
def State.canvas (s : State) (x y : Reg) (n : Nibble) : Canvas :=
  drawSprite (s.reg x) (s.reg y) (s.sprite n) s.fb

/-- The state that a draw leaves: a new picture, the flag, one event. -/
def State.shown (s : State) (c : Canvas) : State := ((s.setFb c.fb).setReg VF (flagByte c.hit)).present

theorem exec_drw_of_readable (h : n = 0 ∨ Readable s.base n.toNat) :
    exec (.drw x y n) s = .next (s.shown (s.canvas x y n)) := by
  have hload := load_of_readable s (a := s.base) (n := n.toNat) (h.imp_left fun e => by rw [e]; rfl)
  rw [exec, execDrw, hload, settle_ok, State.shown, State.canvas, State.sprite]

theorem exec_drw_of_outside (hn : 0 < n.toNat) (h : 0x1000 < s.base + n.toNat) :
    exec (.drw x y n) s = .next (s.raise ⟨.dataAddress, BitVec.ofNat 16 (max s.base 0x1000)⟩) := by
  rw [exec, execDrw, load_of_outside s hn h, settle_error]

/-! ### The state that a draw leaves -/

section
variable (c : Canvas)

@[simp] theorem shown_fb : (s.shown c).fb = c.fb := rfl

@[simp] theorem shown_presented : (s.shown c).presented = s.presented ++ [c.fb] := rfl

@[simp] theorem shown_reg (k : Reg) : (s.shown c).reg k = if k = VF then flagByte c.hit else s.reg k := by
  rw [State.shown, present_reg, setReg_reg, setFb_reg]

theorem shown_regsExcept : RegsExcept [VF] s (s.shown c) := by
  intro k hk
  rw [shown_reg, if_neg (by simpa using hk)]

theorem shown_unchanged : UnchangedExcept [.v, .fb, .presented] s (s.shown c) :=
  ((setFb_unchanged s c.fb).mono (by simp)).trans
    (((setReg_unchanged _ VF _).mono (by simp)).trans ((present_unchanged _).mono (by simp)))

/-- The flag is 1 exactly when the drawing collided (R213). -/
theorem shown_VF_toNat_eq_one_iff : ((s.shown c).reg VF).toNat = 1 ↔ c.hit = true := by
  rw [shown_reg, if_pos rfl, flagByte_toNat]
  cases c.hit <;> simp

theorem shown_VF_toNat_eq_one_or_zero :
    ((s.shown c).reg VF).toNat = 1 ∨ ((s.shown c).reg VF).toNat = 0 := by
  rw [shown_reg, if_pos rfl, flagByte_toNat]
  cases c.hit <;> simp

end

/-! ### The sprite on the picture -/

@[simp] theorem sprite_length : (s.sprite n).length = n.toNat := bytesAt_length s _ _

theorem sprite_getD {r : Nat} (h : r < n.toNat) : (s.sprite n).getD r 0 = s.byteAt (s.base + r) :=
  bytesAt_getD s s.base h

/-- No sprite is higher than the picture (R211), so that no pixel is visited twice. -/
theorem sprite_length_le : (s.sprite n).length ≤ 32 := by
  have := n.isLt
  rw [sprite_length]
  omega

theorem canvas_hit_iff : (s.canvas x y n).hit = true ↔ ∃ r b, r < n.toNat ∧ b < 8 ∧
    (s.byteAt (s.base + r)).getLsbD (7 - b) = true ∧
    pixel s.fb (Fin.ofNat 32 ((s.reg y).toNat + r)) (Fin.ofNat 64 ((s.reg x).toNat + b)) = true := by
  rw [State.canvas, drawSprite_hit _ _ _ _ (sprite_length_le s n)]
  simp only [sprite_length]
  refine exists_congr fun r => exists_congr fun b => and_congr_right fun hr => ?_
  rw [sprite_getD s n hr]

/-- XOR twice is no change: a sprite drawn twice leaves the picture as it was (R213). -/
theorem drawSprite_twice (vx vy : Byte) (sprite : List Byte) (h : sprite.length ≤ 32) (fb : Framebuffer) :
    (drawSprite vx vy sprite (drawSprite vx vy sprite fb).fb).fb = fb := by
  apply framebuffer_ext
  intro row col
  by_cases hv : ∃ r b : Nat, r < sprite.length ∧ b < 8 ∧
      row = Fin.ofNat 32 (vy.toNat + r) ∧ col = Fin.ofNat 64 (vx.toNat + b)
  · obtain ⟨r, b, hr, hb, rfl, rfl⟩ := hv
    rw [drawSprite_inside _ _ _ _ hr hb h, drawSprite_inside _ _ _ _ hr hb h, Bool.xor_assoc, Bool.xor_self,
      Bool.xor_false]
  · have hout : ∀ r b : Nat, r < sprite.length → b < 8 →
        ¬ (row = Fin.ofNat 32 (vy.toNat + r) ∧ col = Fin.ofNat 64 (vx.toNat + b)) :=
      fun r b hr hb e => hv ⟨r, b, hr, hb, e⟩
    rw [drawSprite_outside _ _ _ _ _ _ hout, drawSprite_outside _ _ _ _ _ _ hout]

/-- A sprite of no rows leaves the picture, with no collision (R214). -/
theorem canvas_zero : s.canvas x y 0 = ⟨s.fb, false⟩ := rfl

/-- A draw leaves alone all that a second draw at the same place reads, but the picture (D17). -/
theorem shown_canvas (c : Canvas) (hx : x ≠ VF) (hy : y ≠ VF) :
    (s.shown c).canvas x y n = drawSprite (s.reg x) (s.reg y) (s.sprite n) c.fb := by
  rw [State.canvas, shown_reg, shown_reg, if_neg hx, if_neg hy]
  rfl

end

/-- Settles O37: both reads fault as `State.loadBytes` does, for their own number of bytes. -/
theorem readFaultsChangeNothing : Obligations.ReadFaultsChangeNothing := by
  intro s x y i n hi hout
  have hfault := faulted_raise s ⟨.dataAddress, BitVec.ofNat 16 (max s.base 0x1000)⟩
  rcases hi with ⟨rfl, rfl⟩ | ⟨rfl, hn, hn'⟩
  · exact ⟨_, exec_ldVxMem_of_outside s x hout, hfault⟩
  · have hrows : (BitVec.ofNat 4 n).toNat = n := by rw [BitVec.toNat_ofNat, Nat.mod_eq_of_lt hn']
    exact ⟨_, exec_drw_of_outside s x y _ (by rwa [hrows]) (by rwa [hrows]), hfault⟩

/-- Settles O40, by the laws of the sprite on the picture. -/
theorem drawXorsTheSprite : Obligations.DrawXorsTheSprite := by
  intro s x y n hrange row col bit
  refine ⟨_, exec_drw_of_readable s x y n hrange, fun r b hr hb => ?inside, fun r c hout => ?outside,
    shown_VF_toNat_eq_one_or_zero s _, ?flag, shown_regsExcept s _, rfl, shown_unchanged s _⟩
  case inside =>
    have h := drawSprite_inside (s.reg x) (s.reg y) (s.sprite n) s.fb (by rwa [sprite_length]) hb
      (sprite_length_le s n)
    rwa [sprite_getD s n hr] at h
  case outside =>
    exact drawSprite_outside _ _ _ _ r c fun k b hk hb => hout k b (by rwa [sprite_length] at hk) hb
  case flag => rw [shown_VF_toNat_eq_one_iff, canvas_hit_iff]

/-- Settles O41: the canvas of no rows is the old picture without a collision. -/
theorem zeroHeightSpriteDrawsNothing : Obligations.ZeroHeightSpriteDrawsNothing := by
  intro s x y
  refine ⟨_, exec_drw_of_readable s x y 0 (.inl rfl), ?_⟩
  rw [canvas_zero]
  refine ⟨shown_reg s _ VF, shown_regsExcept s _, rfl, ?_⟩
  exact ((setReg_unchanged s VF (flagByte false)).mono (by simp)).trans ((present_unchanged _).mono (by simp))

/-- Settles O42: the second draw reads the same sprite at the same origin, and XOR twice is no change. -/
theorem drawTwiceRestoresThePicture : Obligations.DrawTwiceRestoresThePicture := by
  intro s x y n hx hy hrange
  let t := s.shown (s.canvas x y n)
  have hagain := shown_canvas s x y n (s.canvas x y n) hx hy
  refine ⟨t, _, exec_drw_of_readable s x y n hrange, exec_drw_of_readable t x y n hrange, ?picture, ?flag⟩
  case picture =>
    rw [shown_fb, hagain]
    exact drawSprite_twice _ _ _ (sprite_length_le s n) s.fb
  case flag =>
    rw [shown_VF_toNat_eq_one_iff, canvas_hit_iff, shown_reg, shown_reg, if_neg hx, if_neg hy]
    rfl

end Sys2Proof.Machine

/-! PROOF. What every instruction does (10_state.md R41, 40_step_cycle.md R128, R129): its columns of the access
matrix, how it may change the run state, the inputs it reads, and the bytes it may store. -/

namespace Sys2Proof.Machine

section
variable (s : State)

/-! ### Completion or fault, for the instructions that may fault -/

/-- The five faults of execution (R250). -/
def executionFaults : List FaultCause := [.stackOverflow, .stackUnderflow, .dataAddress, .fontWrite, .keyIndex]

/-- `t` is `s` with one of the five faults taken. -/
def RaisedFrom (s t : State) : Prop := ∃ trap : Trap, trap.cause ∈ executionFaults ∧ t = s.raise trap

theorem raisedFrom_raise {cause : FaultCause} (h : cause ∈ executionFaults) (info : Word) :
    RaisedFrom s (s.raise ⟨cause, info⟩) := ⟨⟨cause, info⟩, h, rfl⟩

/-- A STORE, settled, everything it can do (R128, R259). -/
theorem store_cases {bytes : List Byte} (hne : bytes ≠ []) :
    RaisedFrom s (s.settle (s.storeBytes s.base bytes)) ∨
    (Writable s.base bytes.length ∧ s.settle (s.storeBytes s.base bytes) = s.pokes s.base bytes) := by
  by_cases hfont : s.base < 0x50
  · rw [store_of_font s hne hfont]
    exact .inl (raisedFrom_raise s (by decide) _)
  by_cases hout : 0x1000 < s.base + bytes.length
  · rw [store_of_outside s (by omega) hout hne]
    exact .inl (raisedFrom_raise s (by decide) _)
  · have hrange : Writable s.base bytes.length := ⟨by omega, by omega⟩
    exact .inr ⟨hrange, store_of_writable s hrange⟩

theorem exec_ldB_cases (x : Reg) : ∃ t, exec (.ldB x) s = .next t ∧
    (RaisedFrom s t ∨ ∃ bytes, Writable s.base bytes.length ∧ t = s.pokes s.base bytes) :=
  ⟨_, exec_ldB s x, (store_cases s (List.cons_ne_nil _ _)).imp_right fun h => ⟨_, h⟩⟩

theorem exec_ldMemVx_cases (x : Reg) : ∃ t, exec (.ldMemVx x) s = .next t ∧
    (RaisedFrom s t ∨ ∃ bytes, Writable s.base bytes.length ∧ t = s.pokes s.base bytes) :=
  ⟨_, exec_ldMemVx s x, (store_cases s (List.ne_nil_of_length_eq_add_one (regsUpTo_length s x))).imp_right
    fun h => ⟨_, h⟩⟩

theorem exec_ldVxMem_cases (x : Reg) : ∃ t, exec (.ldVxMem x) s = .next t ∧
    (RaisedFrom s t ∨ t = s.setRegs 0 (s.bytesAt s.base (x.val + 1))) := by
  by_cases h : 0x1000 < s.base + (x.val + 1)
  · exact ⟨_, exec_ldVxMem_of_outside s x h, .inl (raisedFrom_raise s (by decide) _)⟩
  · exact ⟨_, exec_ldVxMem_of_readable s x (by omega), .inr rfl⟩

/-- A draw that may not read its rows has one, and it reaches above 0xFFF (R211, R214). -/
theorem drw_outside {a : Nat} {n : Nibble} (h : ¬ (n = 0 ∨ Readable a n.toNat)) :
    0 < n.toNat ∧ 0x1000 < a + n.toNat := by
  obtain ⟨hn, hout⟩ := not_or.1 h
  have hpos : n.toNat ≠ 0 := fun e => hn (BitVec.eq_of_toNat_eq e)
  exact ⟨by omega, by omega⟩

theorem exec_drw_cases (x y : Reg) (n : Nibble) : ∃ t, exec (.drw x y n) s = .next t ∧
    (RaisedFrom s t ∨ t = s.shown (s.canvas x y n)) := by
  by_cases h : n = 0 ∨ Readable s.base n.toNat
  · exact ⟨_, exec_drw_of_readable s x y n h, .inr rfl⟩
  · obtain ⟨hn, hout⟩ := drw_outside h
    exact ⟨_, exec_drw_of_outside s x y n hn hout, .inl (raisedFrom_raise s (by decide) _)⟩

theorem exec_skp_cases (x : Reg) : ∃ t, exec (.skp x) s = .next t ∧
    (RaisedFrom s t ∨ ∃ c, t = s.skipIf c) := by
  by_cases h : 15 < (s.reg x).toNat
  · exact ⟨_, exec_skp_of_noKey s x h, .inl (raisedFrom_raise s (by decide) _)⟩
  · exact ⟨_, exec_skp_of_key s x (k := ⟨(s.reg x).toNat, by omega⟩) rfl, .inr ⟨_, rfl⟩⟩

theorem exec_sknp_cases (x : Reg) : ∃ t, exec (.sknp x) s = .next t ∧
    (RaisedFrom s t ∨ ∃ c, t = s.skipIf c) := by
  by_cases h : 15 < (s.reg x).toNat
  · exact ⟨_, exec_sknp_of_noKey s x h, .inl (raisedFrom_raise s (by decide) _)⟩
  · exact ⟨_, exec_sknp_of_key s x (k := ⟨(s.reg x).toNat, by omega⟩) rfl, .inr ⟨_, rfl⟩⟩

end

/-! ### The columns of an instruction (R41) -/

/-- `t` keeps to the columns of `i`: parts, registers, and memory as data where memory is not listed. -/
structure Columns (i : Instr) (s t : State) : Prop where
  frame : UnchangedExcept (changedParts i) s t
  regs : RegsExcept (changedRegs i) s t
  mem : .mem ∉ changedParts i → t.mem = s.mem

section
variable {i : Instr} {s t : State}

/-- Where no register is listed, the frame alone decides. -/
theorem columns_of_frame {parts : List Part} (hframe : UnchangedExcept parts s t)
    (hsub : ∀ p ∈ parts, p ∈ changedParts i := by simp [changedParts])
    (hv : .v ∉ changedParts i := by simp [changedParts])
    (hmem : .mem ∉ changedParts i → t.mem = s.mem := by exact fun _ => rfl) : Columns i s t :=
  ⟨hframe.mono hsub, fun k _ => hframe .v (fun h => hv (hsub .v h)) k, hmem⟩

theorem columns_of_raised (h : RaisedFrom s t) (hc : .control ∈ changedParts i := by simp [changedParts]) :
    Columns i s t := by
  obtain ⟨trap, -, rfl⟩ := h
  obtain ⟨-, -, -, hframe⟩ := faulted_raise s trap
  exact ⟨hframe.mono (by simpa using hc), fun k _ => raise_reg s trap k, fun _ => rfl⟩

theorem columns_skipIf (c : Bool) (hpc : .pc ∈ changedParts i := by simp [changedParts])
    (hv : .v ∉ changedParts i := by simp [changedParts]) : Columns i s (s.skipIf c) :=
  columns_of_frame (skipIf_unchanged s c) (by simpa using hpc) hv fun _ => by cases c <;> rfl

theorem columns_setReg {x : Reg} (b : Byte) (hv : .v ∈ changedParts i := by simp [changedParts])
    (hx : changedRegs i = [x] := by rfl) : Columns i s (s.setReg x b) :=
  ⟨(setReg_unchanged s x b).mono (by simpa using hv), hx ▸ setReg_regsExcept s x b, fun _ => rfl⟩

theorem columns_setFlagAndReg {x : Reg} (f : Bool) (b : Byte)
    (hv : .v ∈ changedParts i := by simp [changedParts]) (hx : changedRegs i = [x, VF] := by rfl) :
    Columns i s (s.setFlagAndReg f x b) :=
  ⟨(setFlagAndReg_unchanged s f x b).mono (by simpa using hv), hx ▸ setFlagAndReg_regsExcept s f x b,
    fun _ => rfl⟩

theorem columns_pokes (a : Nat) (bytes : List Byte) (hm : .mem ∈ changedParts i := by simp [changedParts])
    (hv : .v ∉ changedParts i := by simp [changedParts]) : Columns i s (s.pokes a bytes) :=
  columns_of_frame (pokes_unchanged s a bytes) (by simpa using hm) hv fun h => absurd hm h

end

/-- Every instruction answers a next state within its columns, completing or faulting. -/
theorem exec_columns (i : Instr) (s : State) : ∃ t, exec i s = .next t ∧ Columns i s t := by
  cases i with
  | cls => exact ⟨_, exec_cls s, columns_of_frame (setFb_present_unchanged s clearedFb)⟩
  | ret =>
    obtain h | ⟨top, h⟩ := sp_cases s
    · exact ⟨_, exec_ret_of_empty s h, columns_of_raised (raisedFrom_raise s (by decide) _)⟩
    · exact ⟨_, exec_ret_of_entry s h, columns_of_frame (setStack_setPc_unchanged s s.stack _ _)⟩
  | jp nnn => exact ⟨_, exec_jp s nnn, columns_of_frame (setPc_unchanged s _)⟩
  | call nnn =>
    by_cases h : s.sp.val < 16
    · exact ⟨_, exec_call_of_room s nnn h, columns_of_frame (setStack_setPc_unchanged s _ _ _)⟩
    · exact ⟨_, exec_call_of_full s nnn h, columns_of_raised (raisedFrom_raise s (by decide) _)⟩
  | seImm x nn => exact ⟨_, exec_seImm s x nn, columns_skipIf _⟩
  | sneImm x nn => exact ⟨_, exec_sneImm s x nn, columns_skipIf _⟩
  | seReg x y => exact ⟨_, exec_seReg s x y, columns_skipIf _⟩
  | sneReg x y => exact ⟨_, exec_sneReg s x y, columns_skipIf _⟩
  | ldImm x nn => exact ⟨_, exec_ldImm s x nn, columns_setReg _⟩
  | addImm x nn => exact ⟨_, exec_addImm s x nn, columns_setReg _⟩
  | ldReg x y => exact ⟨_, exec_ldReg s x y, columns_setReg _⟩
  | or x y => exact ⟨_, exec_or s x y, columns_setReg _⟩
  | and x y => exact ⟨_, exec_and s x y, columns_setReg _⟩
  | xor x y => exact ⟨_, exec_xor s x y, columns_setReg _⟩
  | addReg x y => exact ⟨_, exec_addReg s x y, columns_setFlagAndReg _ _⟩
  | sub x y => exact ⟨_, exec_sub s x y, columns_setFlagAndReg _ _⟩
  | shr x y => exact ⟨_, exec_shr s x y, columns_setFlagAndReg _ _⟩
  | subn x y => exact ⟨_, exec_subn s x y, columns_setFlagAndReg _ _⟩
  | shl x y => exact ⟨_, exec_shl s x y, columns_setFlagAndReg _ _⟩
  | ldI nnn => exact ⟨_, exec_ldI s nnn, columns_of_frame (setI_unchanged s _)⟩
  | jpV0 nnn => exact ⟨_, exec_jpV0 s nnn, columns_of_frame (setPc_unchanged s _)⟩
  | rnd x nn =>
    refine ⟨_, exec_rnd s x nn, drawn_setReg_unchanged s x _, drawn_setReg_regsExcept s x _, fun _ => ?_⟩
    obtain ⟨b, -, h⟩ | ⟨-, h⟩ := drawByte_cases s <;> rw [h] <;> rfl
  | drw x y n =>
    obtain ⟨t, h, hfault | rfl⟩ := exec_drw_cases s x y n
    · exact ⟨t, h, columns_of_raised hfault⟩
    · exact ⟨_, h, (shown_unchanged s _).mono (by simp [changedParts]), shown_regsExcept s _, fun _ => rfl⟩
  | skp x =>
    obtain ⟨t, h, hfault | ⟨c, rfl⟩⟩ := exec_skp_cases s x
    · exact ⟨t, h, columns_of_raised hfault⟩
    · exact ⟨_, h, columns_skipIf c⟩
  | sknp x =>
    obtain ⟨t, h, hfault | ⟨c, rfl⟩⟩ := exec_sknp_cases s x
    · exact ⟨t, h, columns_of_raised hfault⟩
    · exact ⟨_, h, columns_skipIf c⟩
  | ldVxDt x => exact ⟨_, exec_ldVxDt s x, columns_setReg _⟩
  | ldVxK x => exact ⟨_, exec_ldVxK s x, columns_of_frame (setRun_unchanged s .awaitingKey)⟩
  | ldDtVx x => exact ⟨_, exec_ldDtVx s x, columns_of_frame (armDt_unchanged s _)⟩
  | ldStVx x => exact ⟨_, exec_ldStVx s x, columns_of_frame (armSt_unchanged s _)⟩
  | addI x => exact ⟨_, exec_addI s x, columns_of_frame (setI_unchanged s _)⟩
  | ldF x => exact ⟨_, exec_ldF s x, columns_of_frame (setI_unchanged s _)⟩
  | ldB x =>
    obtain ⟨t, h, hfault | ⟨bytes, -, rfl⟩⟩ := exec_ldB_cases s x
    · exact ⟨t, h, columns_of_raised hfault⟩
    · exact ⟨_, h, columns_pokes _ bytes⟩
  | ldMemVx x =>
    obtain ⟨t, h, hfault | ⟨bytes, -, rfl⟩⟩ := exec_ldMemVx_cases s x
    · exact ⟨t, h, columns_of_raised hfault⟩
    · exact ⟨_, h, columns_pokes _ bytes⟩
  | ldVxMem x =>
    obtain ⟨t, h, hfault | rfl⟩ := exec_ldVxMem_cases s x
    · exact ⟨t, h, columns_of_raised hfault⟩
    · refine ⟨_, h, (setRegs_unchanged s 0 _).mono (by simp [changedParts]), fun k hk => ?_, fun _ => ?_⟩
      · rw [setRegs_bytesAt_reg, if_neg (by simpa [changedRegs] using hk)]
      · rw [setRegs_eq]
  | unrecognised w => exact ⟨s, exec_unrecognised s w, columns_of_frame (.refl [] s)⟩

section
variable {i : Instr} {s t : State} (h : exec i s = .next t)
include h

theorem columns_of_exec : Columns i s t := by
  obtain ⟨u, hu, hcolumns⟩ := exec_columns i s
  rw [h] at hu
  cases hu
  exact hcolumns

/-- A part that no column lists is kept. -/
theorem exec_keeps {p : Part} (hp : p ∉ changedParts i) : p.Same s t := (columns_of_exec h).frame p hp

theorem exec_launch : t.launch = s.launch := exec_keeps h (p := .launch) (by cases i <;> simp [changedParts])

theorem exec_ir : t.ir = s.ir := exec_keeps h (p := .ir) (by cases i <;> simp [changedParts])

theorem exec_now : t.now = s.now := (exec_keeps h (p := .inputs) (by cases i <;> simp [changedParts])).1

/-! ### The run state (R128, R129) -/

/-- A fault of execution, the wait of `Fx0A`, or the run state kept. -/
theorem exec_control : RaisedFrom s t ∨ ((∃ x, i = .ldVxK x) ∧ t = s.setRun .awaitingKey) ∨
    ((¬ ∃ x, i = .ldVxK x) ∧ Part.control.Same s t) := by
  by_cases hc : .control ∈ changedParts i
  case neg =>
    refine .inr (.inr ⟨?_, exec_keeps h hc⟩)
    rintro ⟨x, rfl⟩
    exact hc (by simp [changedParts])
  cases i with
  | ret =>
    obtain hsp | ⟨top, hsp⟩ := sp_cases s
    · cases h.symm.trans (exec_ret_of_empty s hsp)
      exact .inl (raisedFrom_raise s (by decide) _)
    · cases h.symm.trans (exec_ret_of_entry s hsp)
      exact .inr (.inr ⟨nofun, rfl, rfl, rfl⟩)
  | call nnn =>
    by_cases hsp : s.sp.val < 16
    · cases h.symm.trans (exec_call_of_room s nnn hsp)
      exact .inr (.inr ⟨nofun, rfl, rfl, rfl⟩)
    · cases h.symm.trans (exec_call_of_full s nnn hsp)
      exact .inl (raisedFrom_raise s (by decide) _)
  | drw x y n =>
    obtain ⟨u, h', hfault | rfl⟩ := exec_drw_cases s x y n <;> cases h.symm.trans h'
    · exact .inl hfault
    · exact .inr (.inr ⟨nofun, shown_unchanged s _ .control (by decide)⟩)
  | skp x =>
    obtain ⟨u, h', hfault | ⟨c, rfl⟩⟩ := exec_skp_cases s x <;> cases h.symm.trans h'
    · exact .inl hfault
    · exact .inr (.inr ⟨nofun, skipIf_unchanged s c .control (by decide)⟩)
  | sknp x =>
    obtain ⟨u, h', hfault | ⟨c, rfl⟩⟩ := exec_sknp_cases s x <;> cases h.symm.trans h'
    · exact .inl hfault
    · exact .inr (.inr ⟨nofun, skipIf_unchanged s c .control (by decide)⟩)
  | ldVxK x =>
    cases h.symm.trans (exec_ldVxK s x)
    exact .inr (.inl ⟨⟨x, rfl⟩, rfl⟩)
  | ldB x =>
    obtain ⟨u, h', hfault | ⟨bytes, -, rfl⟩⟩ := exec_ldB_cases s x <;> cases h.symm.trans h'
    · exact .inl hfault
    · exact .inr (.inr ⟨nofun, pokes_unchanged s _ bytes .control (by decide)⟩)
  | ldMemVx x =>
    obtain ⟨u, h', hfault | ⟨bytes, -, rfl⟩⟩ := exec_ldMemVx_cases s x <;> cases h.symm.trans h'
    · exact .inl hfault
    · exact .inr (.inr ⟨nofun, pokes_unchanged s _ bytes .control (by decide)⟩)
  | ldVxMem x =>
    obtain ⟨u, h', hfault | rfl⟩ := exec_ldVxMem_cases s x <;> cases h.symm.trans h'
    · exact .inl hfault
    · exact .inr (.inr ⟨nofun, setRegs_unchanged s 0 _ .control (by decide)⟩)
  | _ => simp [changedParts] at hc

/-! ### Memory (R66) -/

/-- Memory is kept, or bytes are stored where they may be written. -/
theorem exec_mem : t.mem = s.mem ∨ ∃ bytes, Writable s.base bytes.length ∧ t = s.pokes s.base bytes := by
  by_cases hm : .mem ∈ changedParts i
  case neg => exact .inl ((columns_of_exec h).mem hm)
  have hkept : RaisedFrom s t → t.mem = s.mem := by
    rintro ⟨trap, -, rfl⟩
    rfl
  cases i with
  | ldB x =>
    obtain ⟨u, h', hu⟩ := exec_ldB_cases s x
    cases h.symm.trans h'
    exact hu.imp_left hkept
  | ldMemVx x =>
    obtain ⟨u, h', hu⟩ := exec_ldMemVx_cases s x
    cases h.symm.trans h'
    exact hu.imp_left hkept
  | _ => simp [changedParts] at hm

theorem exec_memWf (hwf : s.MemWf) : t.MemWf := by
  obtain hm | ⟨bytes, ⟨-, hrange⟩, rfl⟩ := exec_mem h
  · rw [State.MemWf, hm, exec_launch h]
    exact hwf
  · exact pokes_memWf s hwf _ bytes hrange

/-- No instruction stores into the font (D7). -/
theorem exec_font (hwf : s.MemWf) {a : Nat} (ha : a < 0x50) : t.byteAt a = s.byteAt a := by
  obtain hm | ⟨bytes, ⟨hbase, hrange⟩, rfl⟩ := exec_mem h
  · exact byteAt_congr s t (exec_launch h) hm a
  · exact pokes_memExcept s hwf hrange a (.inl (by omega))

end

/-! ### The inputs of the step (R37, R41) -/

/-- `s` in a step whose sample and time are these. -/
def State.withInputs (s : State) (input : Sample) (now : Nat) : State := { s with input := input, now := now }

section
variable (s : State) (input : Sample) (now : Nat)

theorem skipIf_withInputs (c : Bool) :
    (s.withInputs input now).skipIf c = (s.skipIf c).withInputs input now := by
  cases c <;> rfl

theorem pokes_withInputs (a : Nat) (bytes : List Byte) :
    (s.withInputs input now).pokes a bytes = (s.pokes a bytes).withInputs input now := by
  induction bytes generalizing s a with
  | nil => rfl
  | cons b rest ih => exact ih (s.poke a b) (a + 1)

theorem settle_store_withInputs (bytes : List Byte) :
    (s.withInputs input now).settle ((s.withInputs input now).storeBytes s.base bytes) =
      (s.settle (s.storeBytes s.base bytes)).withInputs input now := by
  rw [storeBytes_eq, storeBytes_eq, pokes_withInputs]
  split
  · rfl
  · split <;> rfl

theorem setRegs_withInputs (k : Nat) (bytes : List Byte) :
    (s.withInputs input now).setRegs k bytes = (s.setRegs k bytes).withInputs input now := by
  induction bytes generalizing s k with
  | nil => rfl
  | cons b rest ih => exact ih (s.setReg (Fin.ofNat 16 k) b) (k + 1)

/-- An instruction that reads no input does the same under any other sample and time. -/
theorem exec_withInputs {i : Instr} (hi : readsInputs i = false) : ∃ t, exec i s = .next t ∧
    exec i (s.withInputs input now) = .next (t.withInputs input now) := by
  cases i with
  | rnd | skp | sknp | ldVxDt | ldDtVx | ldStVx => cases hi
  | seImm | sneImm | seReg | sneReg => exact ⟨_, rfl, congrArg _ (skipIf_withInputs s input now _)⟩
  | ret =>
    obtain h | ⟨top, h⟩ := sp_cases s
    · exact ⟨_, exec_ret_of_empty s h, exec_ret_of_empty (s.withInputs input now) h⟩
    · exact ⟨_, exec_ret_of_entry s h, exec_ret_of_entry (s.withInputs input now) h⟩
  | call nnn =>
    by_cases h : s.sp.val < 16
    · exact ⟨_, exec_call_of_room s nnn h, exec_call_of_room (s.withInputs input now) nnn h⟩
    · exact ⟨_, exec_call_of_full s nnn h, exec_call_of_full (s.withInputs input now) nnn h⟩
  | drw x y n =>
    by_cases h : n = 0 ∨ Readable s.base n.toNat
    · exact ⟨_, exec_drw_of_readable s x y n h, exec_drw_of_readable (s.withInputs input now) x y n h⟩
    · obtain ⟨hn, hout⟩ := drw_outside h
      exact ⟨_, exec_drw_of_outside s x y n hn hout, exec_drw_of_outside (s.withInputs input now) x y n hn hout⟩
  | ldVxMem x =>
    by_cases h : 0x1000 < s.base + (x.val + 1)
    · exact ⟨_, exec_ldVxMem_of_outside s x h, exec_ldVxMem_of_outside (s.withInputs input now) x h⟩
    · have hrange : Readable s.base (x.val + 1) := by omega
      exact ⟨_, exec_ldVxMem_of_readable s x hrange,
        (exec_ldVxMem_of_readable (s.withInputs input now) x hrange).trans
          (congrArg _ (setRegs_withInputs s input now 0 _))⟩
  | ldB x => exact ⟨_, exec_ldB s x, congrArg _ (settle_store_withInputs s input now _)⟩
  | ldMemVx x => exact ⟨_, exec_ldMemVx s x, congrArg _ (settle_store_withInputs s input now _)⟩
  | _ => exact ⟨_, rfl, rfl⟩

end

/-- Settles O51, by the columns of each instruction. -/
theorem everyInstructionKeepsToItsColumns : Obligations.EveryInstructionKeepsToItsColumns := fun i s => by
  obtain ⟨t, h, hcolumns⟩ := exec_columns i s
  exact ⟨t, h, hcolumns.frame, hcolumns.regs⟩

/-- Settles O52: the two runs go side by side. -/
theorem onlyListedInstructionsReadInputs : Obligations.OnlyListedInstructionsReadInputs := by
  intro i s t input now hi h
  obtain ⟨u, hu, hinputs⟩ := exec_withInputs s input now hi
  cases h.symm.trans hu
  exact hinputs

/-- Settles O53: of the three ways the run state may go, only a fault ends Halted. -/
theorem faultsArePrecise : Obligations.FaultsArePrecise := by
  intro i s t hrun h hhalted
  obtain ⟨trap, hcause, rfl⟩ | ⟨-, rfl⟩ | ⟨-, hsame, -⟩ := exec_control h
  · obtain ⟨-, -, -, hframe⟩ := faulted_raise s trap
    exact ⟨hcause, hframe⟩
  · cases hhalted
  · exact absurd (hsame.symm.trans hhalted) hrun

/-- Settles O54: of the three ways the run state may go, only the wait ends in AwaitingKey. -/
theorem onlyWaitForKeySuspends : Obligations.OnlyWaitForKeySuspends := by
  intro i s t hrun h
  obtain ⟨trap, -, rfl⟩ | ⟨hi, rfl⟩ | ⟨hi, hsame, -⟩ := exec_control h
  · refine ⟨nofun, ?_⟩
    rintro ⟨x, rfl⟩
    cases h.symm.trans (exec_ldVxK s x)
  · exact ⟨fun _ => hi, fun _ => rfl⟩
  · refine ⟨fun hwait => ?_, fun hx => absurd hx hi⟩
    rw [hsame, hrun] at hwait
    cases hwait

end Sys2Proof.Machine

/-! PROOF. The step and the invariant (10_state.md, 60_exceptions.md): what a step keeps whatever it executes, a
whole key wait, and the invariant through sampling, faults, the key wait and execution. -/

namespace Sys2Proof.Machine

section
variable {s t : State}

/-! ### What every step keeps -/

/-- A step that executes nothing leaves all but inputs, registers and the run state; the others are ready. -/
theorem step_of_not_ready (h : ¬ s.Ready) :
    ∃ t, step s = .next t ∧ UnchangedExcept [.inputs, .v, .control] s t := by
  have hsample : UnchangedExcept [.inputs, .v, .control] s s.sample := (sample_unchanged s).mono (by simp)
  have hraise (trap : Trap) : UnchangedExcept [.inputs, .v, .control] s (s.sample.raise trap) := by
    obtain ⟨-, -, -, hframe⟩ := faulted_raise s.sample trap
    exact hsample.trans (hframe.mono (by simp))
  obtain ⟨-, hstep⟩ | ⟨-, -, hstep⟩ | ⟨-, -, hstep⟩ | ⟨-, -, -, hstep⟩ | ⟨hrun, hstop, hpc, -⟩ := step_cases s
  · exact ⟨_, hstep, hsample⟩
  · exact ⟨_, hstep, hraise _⟩
  · exact ⟨_, hstep, hsample.trans ((keyWait_unchanged _).mono (by simp))⟩
  · exact ⟨_, hstep, hraise _⟩
  · exact absurd ⟨hrun, hstop, hpc⟩ h

theorem fetched_launch : s.fetched.launch = s.launch := sample_launch s

theorem fetched_mem : s.fetched.mem = s.mem := sample_mem s

theorem fetched_memWf (hwf : s.MemWf) : s.fetched.MemWf := by
  rw [State.MemWf, fetched_launch, fetched_mem]
  exact hwf

theorem fetched_byteAt (a : Nat) : s.fetched.byteAt a = s.byteAt a := byteAt_congr _ _ fetched_launch fetched_mem a

/-! ### Readiness and what comes after it -/

theorem sample_input_congr (hpending : t.pending = s.pending) (hinput : t.input = s.input) :
    t.sample.input = s.sample.input := by
  obtain ⟨hs, hs'⟩ | ⟨p, rest, hs, hs'⟩ := sample_cases s <;>
    obtain ⟨ht, ht'⟩ | ⟨q, rest', ht, ht'⟩ := sample_cases t <;> rw [hs', ht'] <;> simp_all

theorem State.Ready.congr (h : s.Ready) (hframe : UnchangedExcept [.mem] s t) : t.Ready := by
  obtain ⟨-, hinput, hpending⟩ := hframe .inputs (by decide)
  obtain ⟨hrun, -⟩ := hframe .control (by decide)
  have hpc : t.pc = s.pc := hframe .pc (by decide)
  exact ⟨hrun.trans h.running, by rw [sample_input_congr hpending hinput]; exact h.noStop, hpc ▸ h.inRange⟩

/-- A part that changed on the way but holds its old value need not be listed. -/
theorem UnchangedExcept.erase {p : Part} {parts : List Part} (h : UnchangedExcept (p :: parts) s t)
    (hp : p.Same s t) : UnchangedExcept parts s t := by
  intro q hq
  by_cases e : q = p
  · exact e ▸ hp
  · exact h q (by simp [e, hq])

/-! ### The whole key wait (R123, R232) -/

/-- The register that the `Fx0A` word names is its operand. -/
theorem xReg_of_decodeWord_ldVxK {w : Word} {x : Reg} (h : decodeWord w = .ldVxK x) : xReg w = x := by
  obtain ⟨-, hw⟩ := restores_decodeWord w
  rw [← hw, h]
  exact xReg_xnn 0xF#4 x 0x0A#8

theorem setPending_unchanged (s : State) (samples : List Sample) :
    UnchangedExcept [.inputs] s { s with pending := samples } := by
  intro p hp
  cases p with
  | inputs => simp at hp
  | _ => simp [Part.Same, State.byteAt, State.reg]

/-- The state in which an `Fx0A` leaves the core after its own step, for these samples to come. -/
def State.waiting (s : State) (samples : List Sample) : State :=
  { s.fetched.setRun .awaitingKey with pending := samples }

/-- Up to its last step, a key wait has changed nothing but `IR`, `PC`, the run state and the inputs. -/
theorem waiting_unchanged (s : State) (samples : List Sample) :
    UnchangedExcept [.ir, .pc, .control, .inputs] s (s.waiting samples) :=
  ((fetched_unchanged s).mono (by simp)).trans
    (((setRun_unchanged _ _).mono (by simp)).trans ((setPending_unchanged _ samples).mono (by simp)))

/-! ### The parts of the invariant under execution (R24, R29) -/

/-- The valid entries are fetch-advanced addresses (R24). -/
def StackLow (s : State) : Prop := ∀ k : Fin 16, k.val < s.sp.val → (s.stack.get k).toNat ≤ 4095

theorem skipIf_pc_le (s : State) (c : Bool) : (s.skipIf c).pc.toNat ≤ s.pc.toNat + 2 := by
  rw [skipIf_pc_toNat]
  split <;> omega

variable {i : Instr} (h : exec i s = .next t)
include h

/-- From a fetch-advanced `PC` no instruction leads beyond 0x10FE (R24). -/
theorem exec_pc_le (hpc : s.pc.toNat ≤ 4095) (hstack : StackLow s) : t.pc.toNat ≤ 0x10FE := by
  by_cases hp : .pc ∈ changedParts i
  case neg =>
    have hkept : t.pc = s.pc := exec_keeps h hp
    rw [hkept]
    omega
  have hraised : RaisedFrom s t → t.pc.toNat ≤ 0x10FE := by
    rintro ⟨trap, -, rfl⟩
    rw [raise_pc]
    omega
  have hskip : ∀ c, (s.skipIf c).pc.toNat ≤ 0x10FE := fun c => (skipIf_pc_le s c).trans (by omega)
  have hjump (nnn : Addr12) : (addrOf nnn).toNat ≤ 0x10FE := by
    have := nnn.isLt
    rw [addrOf_toNat]
    omega
  cases i with
  | ret =>
    obtain hsp | ⟨top, hsp⟩ := sp_cases s
    · cases h.symm.trans (exec_ret_of_empty s hsp)
      exact hraised (raisedFrom_raise s (by decide) _)
    · cases h.symm.trans (exec_ret_of_entry s hsp)
      exact (hstack top (by omega)).trans (by decide)
  | jp nnn =>
    cases h.symm.trans (exec_jp s nnn)
    exact hjump nnn
  | call nnn =>
    by_cases hsp : s.sp.val < 16
    · cases h.symm.trans (exec_call_of_room s nnn hsp)
      exact hjump nnn
    · cases h.symm.trans (exec_call_of_full s nnn hsp)
      exact hraised (raisedFrom_raise s (by decide) _)
  | seImm x nn => cases h.symm.trans (exec_seImm s x nn); exact hskip _
  | sneImm x nn => cases h.symm.trans (exec_sneImm s x nn); exact hskip _
  | seReg x y => cases h.symm.trans (exec_seReg s x y); exact hskip _
  | sneReg x y => cases h.symm.trans (exec_sneReg s x y); exact hskip _
  | jpV0 nnn =>
    cases h.symm.trans (exec_jpV0 s nnn)
    have hbyte := (s.reg 0).isLt
    have haddr := nnn.isLt
    rw [setPc_pc, widen_add_addrOf_toNat]
    omega
  | skp x =>
    obtain ⟨u, h', hfault | ⟨c, rfl⟩⟩ := exec_skp_cases s x <;> cases h.symm.trans h'
    · exact hraised hfault
    · exact hskip c
  | sknp x =>
    obtain ⟨u, h', hfault | ⟨c, rfl⟩⟩ := exec_sknp_cases s x <;> cases h.symm.trans h'
    · exact hraised hfault
    · exact hskip c
  | _ => simp [changedParts] at hp

/-- The one entry that execution adds is the fetch-advanced `PC` (R24, R142). -/
theorem exec_stackLow (hpc : s.pc.toNat ≤ 4095) (hstack : StackLow s) : StackLow t := by
  by_cases hp : .stack ∈ changedParts i
  case neg =>
    obtain ⟨hkept, hsp⟩ := exec_keeps h hp
    rw [StackLow, hkept, hsp]
    exact hstack
  cases i with
  | ret =>
    obtain hsp | ⟨top, hsp⟩ := sp_cases s
    · cases h.symm.trans (exec_ret_of_empty s hsp)
      exact hstack
    · cases h.symm.trans (exec_ret_of_entry s hsp)
      exact fun k (hk : k.val < top.val) => hstack k (by omega)
  | call nnn =>
    by_cases hsp : s.sp.val < 16
    · cases h.symm.trans (exec_call_of_room s nnn hsp)
      intro k (hk : k.val < s.sp.val + 1)
      rw [setPc_stack, stack_set_get]
      split
      · exact hpc
      · exact hstack k (by omega)
    · cases h.symm.trans (exec_call_of_full s nnn hsp)
      exact hstack
  | _ => simp [changedParts] at hp

/-- An instruction that arms a timer stamps it with the current time (R31). -/
theorem exec_dtArmed (harmed : s.dt.armedAt ≤ s.now) : t.dt.armedAt ≤ t.now := by
  by_cases hp : .dt ∈ changedParts i
  case neg =>
    have hkept : t.dt = s.dt := exec_keeps h hp
    rwa [hkept, exec_now h]
  cases i with
  | ldDtVx x =>
    cases h.symm.trans (exec_ldDtVx s x)
    exact Nat.le_refl s.now
  | _ => simp [changedParts] at hp

theorem exec_stArmed (harmed : s.st.armedAt ≤ s.now) : t.st.armedAt ≤ t.now := by
  by_cases hp : .st ∈ changedParts i
  case neg =>
    have hkept : t.st = s.st := exec_keeps h hp
    rwa [hkept, exec_now h]
  cases i with
  | ldStVx x =>
    cases h.symm.trans (exec_ldStVx s x)
    exact Nat.le_refl s.now
  | _ => simp [changedParts] at hp

end

/-! ### The invariant, phase by phase -/

section
variable {s : State} (hinv : Inv s)
include hinv

/-- A core that is not Halted has no cause and no information (R34, R258). -/
theorem Inv.noFault (hrun : s.run ≠ .halted) : s.fault = .noFault := by
  by_contra hfault
  exact hrun (hinv.haltedIff.2 hfault)

theorem Inv.sample : Inv s.sample := by
  obtain ⟨-, h⟩ | ⟨p, rest, -, h⟩ := sample_cases s <;> rw [h]
  · exact { hinv with }
  · exact { hinv with
      dtArmed := hinv.dtArmed.trans (Nat.le_add_right _ _)
      stArmed := hinv.stArmed.trans (Nat.le_add_right _ _) }

theorem Inv.raise (trap : Trap) (hcause : trap.cause ≠ .noFault) : Inv (s.raise trap) :=
  { hinv with
    haltedIff := ⟨fun _ => hcause, fun _ => rfl⟩
    noInfo := fun h => absurd h hcause
    waiting := nofun }

theorem Inv.keyWait (hrun : s.run = .awaitingKey) : Inv s.keyWait := by
  have hfault := hinv.noFault (by simp [hrun])
  cases hevent : s.input.keyEvent with
  | none => rwa [keyWait_of_noEvent s hevent]
  | some k =>
    rw [keyWait_of_event s hevent]
    exact { hinv with
      haltedIff := ⟨nofun, fun h => absurd hfault h⟩
      waiting := nofun }

/-- Fetch leaves `PC` far below its bound (R24). -/
theorem Inv.fetched (hready : s.Ready) : Inv s.fetched := by
  have hrun : s.fetched.run = .running := (sample_run s).trans hready.running
  have hpc := fetched_pc_toNat s hready.inRange
  have hlow := hready.inRange
  exact { hinv.sample with
    font := hinv.sample.font
    pcBound := by omega
    waiting := fun h => by rw [hrun] at h; cases h }

/-- Execution from Running ends Halted exactly with a cause, and waiting only at an `Fx0A` (R34, R258, R232). -/
theorem Inv.exec_control {t : State} (hrun : s.run = .running)
    (h : Machine.exec (decodeWord s.ir) s = .next t) :
    (t.run = .halted ↔ t.fault ≠ .noFault) ∧ (t.fault = .noFault → t.faultInfo = 0) ∧
      (t.run = .awaitingKey → ∃ x, decodeWord t.ir = .ldVxK x) := by
  have hfault := hinv.noFault (by simp [hrun])
  obtain ⟨trap, hcause, rfl⟩ | ⟨hwait, rfl⟩ | ⟨-, hrun', hfault', hinfo'⟩ := Machine.exec_control h
  · have hne : trap.cause ≠ .noFault := fun e => absurd (e ▸ hcause) (by decide)
    exact ⟨⟨fun _ => hne, fun _ => rfl⟩, fun e => absurd e hne, nofun⟩
  · exact ⟨⟨nofun, fun e => absurd hfault e⟩, hinv.noInfo, fun _ => hwait⟩
  · rw [hrun', hfault', hinfo', hrun, hfault]
    exact ⟨⟨nofun, fun e => absurd rfl e⟩, fun _ => hinv.noInfo hfault, nofun⟩

/-- EXECUTION keeps the invariant, from a fetch-advanced `PC` and with the word in `IR`. -/
theorem Inv.exec {t : State} (hrun : s.run = .running) (hpc : s.pc.toNat ≤ 4095)
    (h : Machine.exec (decodeWord s.ir) s = .next t) : Inv t := by
  obtain ⟨hhalted, hinfo, hwaiting⟩ := hinv.exec_control hrun h
  exact
    { memWf := exec_memWf h hinv.memWf
      font := fun a ha => by
        rw [exec_font h hinv.memWf ha, hinv.font a ha]
        simp only [exec_launch h]
      dtArmed := exec_dtArmed h hinv.dtArmed
      stArmed := exec_stArmed h hinv.stArmed
      pcBound := exec_pc_le h hpc hinv.stackBound
      stackBound := exec_stackLow h hpc hinv.stackBound
      haltedIff := hhalted
      noInfo := hinfo
      waiting := hwaiting }

end

/-- Settles O58: the invariant goes through each of the five ways a step can take. -/
theorem everyStepKeepsTheInvariant : Obligations.EveryStepKeepsTheInvariant := by
  intro s hinv
  have hsample := hinv.sample
  obtain ⟨-, hstep⟩ | ⟨-, -, hstep⟩ | ⟨hwait, -, hstep⟩ | ⟨-, -, -, hstep⟩ | ⟨hrun, hstop, hpc, hstep⟩ :=
    step_cases s
  · exact ⟨_, hstep, hsample⟩
  · exact ⟨_, hstep, hsample.raise _ nofun⟩
  · exact ⟨_, hstep, hsample.keyWait ((sample_run s).trans hwait)⟩
  · exact ⟨_, hstep, hsample.raise _ nofun⟩
  · obtain ⟨t, hexec, -⟩ := exec_columns (decodeWord s.nextWord) s.fetched
    have hlow := fetched_pc_toNat s hpc
    exact ⟨t, hstep.trans hexec,
      (hinv.fetched ⟨hrun, hstop, hpc⟩).exec ((sample_run s).trans hrun) (by omega) hexec⟩

/-- Settles O6: the steps that execute nothing, and the ready ones. -/
theorem everyStepAnswersANextState : Obligations.EveryStepAnswersANextState := by
  intro s
  by_cases hready : s.Ready
  · obtain ⟨t, hexec, -⟩ := exec_columns (decodeWord s.nextWord) s.fetched
    exact ⟨t, (step_of_ready s hready).trans hexec⟩
  · obtain ⟨t, hstep, -⟩ := step_of_not_ready hready
    exact ⟨t, hstep⟩

/-- Settles O55: a step that executes nothing keeps memory, and no instruction stores into the font. -/
theorem noStepChangesTheFont : Obligations.NoStepChangesTheFont := by
  intro s hwf
  by_cases hready : s.Ready
  · obtain ⟨t, hexec, -⟩ := exec_columns (decodeWord s.nextWord) s.fetched
    refine ⟨t, (step_of_ready s hready).trans hexec, (exec_launch hexec).trans fetched_launch, fun a ha => ?_⟩
    rw [exec_font hexec (fetched_memWf hwf) ha, fetched_byteAt]
  · obtain ⟨t, hstep, hframe⟩ := step_of_not_ready hready
    exact ⟨t, hstep, hframe .launch (by decide), fun a _ => hframe .mem (by decide) a⟩

/-- Settles O12: no instruction has `IR` in its columns. -/
theorem irHoldsTheFetchedWord : Obligations.IrHoldsTheFetchedWord := by
  intro s hready
  obtain ⟨t, hexec, -⟩ := exec_columns (decodeWord s.nextWord) s.fetched
  refine ⟨t, (step_of_ready s hready).trans hexec, ?_⟩
  rw [exec_ir hexec, fetched_ir, nextWord_toNat]

/-- Settles O13: the store leaves the core ready, and the bytes at `PC` are `V0` and `V1`. -/
theorem storeIsSeenByTheNextFetch : Obligations.StoreIsSeenByTheNextFetch := by
  intro s x hwf hready hi hx hrange
  have hframe := pokes_unchanged s s.base (s.regsUpTo x)
  obtain ⟨u, hstep, hir⟩ := irHoldsTheFetchedWord _ (hready.congr hframe)
  have hpc : (s.pokes s.base (s.regsUpTo x)).pc.toNat = s.base := by
    rw [hframe .pc (by decide), State.base, hi]
  have hzero := pokes_regsUpTo_byteAt s hwf hrange (k := 0) (Fin.zero_le x)
  have hone := pokes_regsUpTo_byteAt s hwf hrange (k := 1) hx
  refine ⟨_, u, exec_ldMemVx_of_writable s x hrange, hstep, ?_⟩
  rw [hir, hpc]
  exact congrArg₂ (fun hi lo : Byte => hi.toNat * 256 + lo.toNat) hzero hone

/-- Settles O46: the three steps one after the other; over all of them the run state is back at Running. -/
theorem waitDeliversTheKey : Obligations.WaitDeliversTheKey := by
  intro s x k idle event more hready hdecode hidleStop hidleKey heventStop heventKey
  let t := s.fetched.setRun .awaitingKey
  let u := (s.waiting (idle :: event :: more)).sample
  let w := (u.sample.setReg (xReg u.sample.ir) (BitVec.ofNat 8 k.val)).setRun .running
  have hstart : step s = .next t := by rw [step_of_ready s hready, hdecode, exec_ldVxK]
  have hidle : step (s.waiting (idle :: event :: more)) = .next u := by
    rw [step_of_awaitingKey (s.waiting (idle :: event :: more)) rfl hidleStop, keyWait_of_noEvent _ hidleKey]
  have hdeliver : step u = .next w := by
    rw [step_of_awaitingKey u rfl heventStop, keyWait_of_event _ heventKey]
  have hx : xReg u.sample.ir = x := xReg_of_decodeWord_ldVxK hdecode
  have hu : UnchangedExcept [.inputs] t u := (setPending_unchanged t _).trans (sample_unchanged _)
  have hbefore : UnchangedExcept [.ir, .pc, .control, .inputs] s u.sample :=
    (waiting_unchanged s _).trans (((sample_unchanged _).mono (by simp)).trans
      ((sample_unchanged u).mono (by simp)))
  have hregs : RegsExcept [x] u.sample w := by
    rw [← hx]
    exact setReg_regsExcept u.sample _ _
  have hw : UnchangedExcept [.v, .control] u.sample w := by
    have h := keyWait_unchanged u.sample
    rwa [keyWait_of_event _ heventKey] at h
  refine ⟨t, u, w, hstart, rfl, hidle, hu, hdeliver, rfl, ?key, ?pc, fun j hj => ?regs, ?frame⟩
  case key =>
    have := k.isLt
    rw [← hx, setRun_reg, setReg_reg_same, BitVec.toNat_ofNat, Nat.mod_eq_of_lt (by omega)]
  case pc => exact fetched_pc_toNat s hready.inRange
  case regs => exact (hregs j hj).trans (hbefore .v (by decide) j)
  case frame =>
    have hall : UnchangedExcept [.control, .v, .ir, .pc, .inputs] s w :=
      (hbefore.mono (by simp)).trans (hw.mono (by simp))
    have hfault : w.fault = s.fault := (sample_fault u).trans ((sample_fault _).trans (sample_fault s))
    have hinfo : w.faultInfo = s.faultInfo :=
      (sample_faultInfo u).trans ((sample_faultInfo _).trans (sample_faultInfo s))
    exact hall.erase ⟨hready.running.symm, hfault, hinfo⟩

end Sys2Proof.Machine
